-- ==== Sys2Proof/Word.lean ====
section
/-! DEFINITION. The widths of 00_scope.md rule R6: `ADDR_W`, `WORD_W`, `BYTE_W`, and the request word of 30_encoding.md
rule R71. -/

namespace Sys2Proof

/-- A device-side datum, `latch` and each cache (`BYTE_W` = 8, R6). -/
abbrev Byte := BitVec 8

/-- A CPU-side datum (`WORD_W` = 16, R6). -/
abbrev Word := BitVec 16

/-- An address on the CPU side and on the device side (`ADDR_W` = 16, R6). -/
abbrev Addr := BitVec 16

/-- A request of the CPU side: one fixed-length word of 37 bits, bit 36 the most significant (R71). -/
abbrev BusReq := BitVec 37

end Sys2Proof
end

