-- ==== Sys2Proof/Syntax.lean ====
section
/-! DEFINITION. The seven operations of spec/opcode_table.json (30_encoding.md rules R70 to R79) and the script lines of
rules R81 and R82. -/

namespace Sys2Proof

/-- `byte_mask`: the three legal values (R73). -/
inductive ByteMask where
  | word
  | highByteOnly
  | lowByteOnly
deriving DecidableEq, Repr

/-- A request, one constructor per row of the opcode table. The fields a row ignores (R80) are no arguments; the operands
of `reset` come out of band (R77). -/
inductive Instr where
  | read16 (address : Addr)
  | write16Word (address : Addr) (value : Word)
  | write16HighByteOnly (address : Addr) (value : Word)
  | write16LowByteOnly (address : Addr) (value : Word)
  | cruRead (cruAddress : Word)
  | cruWrite (cruAddress : Word) (value : Word)
  | reset
deriving DecidableEq, Repr

/-- A line of a test script (R81), the two pseudo-operations of R82 among them. The operands of a `reset` line are named in
the script's preamble and do not stand in the line. -/
inductive ScriptLine where
  | read16 (a : Addr)
  | write16 (a : Addr) (v : Word) (mask : ByteMask)
  | cruRead (c : Word)
  | cruWrite (c : Word) (v : Word)
  | reset
  | writeb (b : Addr) (v : Byte)
  | readb (b : Addr)
deriving DecidableEq, Repr

end Sys2Proof
end

