-- ==== Sys2Proof/WellFormed.lean ====
section
/-! DEFINITION. Which instruction terms are requests of this block: `read16` and `write16` take an even address
(20_memory.md rule R44). Every other operand is legal at every value (R20, R75, R80). -/

namespace Sys2Proof

/-- `address[0] == 0` (R44). -/
def isEven (a : Addr) : Bool := a.getLsbD 0 == false

/-- The operand check of R44 and R79: an odd address is no request. -/
def Instr.wellFormed : Instr → Bool
  | .read16 a => isEven a
  | .write16Word a _ => isEven a
  | .write16HighByteOnly a _ => isEven a
  | .write16LowByteOnly a _ => isEven a
  | .cruRead _ => true
  | .cruWrite _ _ => true
  | .reset => true

end Sys2Proof
end

