-- ==== Sys2Proof/Decode.lean ====
section
/-! DEFINITION. The request word of 30_encoding.md: its fields (R71), the operation map (R79), the canonical encoding (R80)
and the expansion of script lines (R81, R82). -/

namespace Sys2Proof

/-- Bits 36:34 (R71). -/
def kindField (w : BusReq) : BitVec 3 := w.extractLsb' 34 3
/-- Bits 33:32 (R71, R73). -/
def beField (w : BusReq) : BitVec 2 := w.extractLsb' 32 2
/-- Bits 31:16 (R71, R74). -/
def addrField (w : BusReq) : Addr := w.extractLsb' 16 16
/-- Bits 15:0 (R71, R75). -/
def dataField (w : BusReq) : Word := w.extractLsb' 0 16

/-- The reserved requests of R79, by name. -/
inductive DecodeError where
  /-- `kind` is 101, 110 or 111. -/
  | reservedKind
  /-- `READ16` or `WRITE16` with `addr[0] = 1`. -/
  | oddAddress
  /-- `WRITE16` with `be = 00`. -/
  | noByteEnabled
deriving DecidableEq, Repr

/-- `kind = 001`: the form `be` selects (R73, R79). -/
def decodeWrite (be : BitVec 2) (a : Addr) (v : Word) : Except DecodeError Instr :=
  if be = 0b11#2 then .ok (.write16Word a v)
  else if be = 0b10#2 then .ok (.write16HighByteOnly a v)
  else if be = 0b01#2 then .ok (.write16LowByteOnly a v)
  else .error .noByteEnabled

/-- The operation map of R72 and R79, total on the 2^37 words. -/
def decode (w : BusReq) : Except DecodeError Instr :=
  if kindField w = 0b000#3 then
    if isEven (addrField w) then .ok (.read16 (addrField w)) else .error .oddAddress
  else if kindField w = 0b001#3 then
    if isEven (addrField w) then decodeWrite (beField w) (addrField w) (dataField w) else .error .oddAddress
  else if kindField w = 0b010#3 then .ok (.cruRead (addrField w))
  else if kindField w = 0b011#3 then .ok (.cruWrite (addrField w) (dataField w))
  else if kindField w = 0b100#3 then .ok .reset
  else .error .reservedKind

/-- The word with these fields (R71). -/
def busReq (kind : BitVec 3) (be : BitVec 2) (a : Addr) (v : Word) : BusReq := kind ++ be ++ a ++ v

/-- The word of an instruction, ignored fields in the canonical form of R80: `be = 11`, `addr = 0`, `data = 0`. -/
def encode : Instr → BusReq
  | .read16 a => busReq 0b000#3 0b11#2 a 0#16
  | .write16Word a v => busReq 0b001#3 0b11#2 a v
  | .write16HighByteOnly a v => busReq 0b001#3 0b10#2 a v
  | .write16LowByteOnly a v => busReq 0b001#3 0b01#2 a v
  | .cruRead c => busReq 0b010#3 0b11#2 c 0#16
  | .cruWrite c v => busReq 0b011#3 0b11#2 c v
  | .reset => busReq 0b100#3 0b11#2 0#16 0#16

/-- The `mask` column of the opcode table: the bits that select the row. -/
def rowMask : Instr → BusReq
  | .read16 _ => 0x1C00010000#37
  | .write16Word _ _ => 0x1F00010000#37
  | .write16HighByteOnly _ _ => 0x1F00010000#37
  | .write16LowByteOnly _ _ => 0x1F00010000#37
  | .cruRead _ => 0x1C00000000#37
  | .cruWrite _ _ => 0x1C00000000#37
  | .reset => 0x1C00000000#37

/-- The `match` column of the opcode table. -/
def rowMatch : Instr → BusReq
  | .read16 _ => 0x0000000000#37
  | .write16Word _ _ => 0x0700000000#37
  | .write16HighByteOnly _ _ => 0x0600000000#37
  | .write16LowByteOnly _ _ => 0x0500000000#37
  | .cruRead _ => 0x0800000000#37
  | .cruWrite _ _ => 0x0C00000000#37
  | .reset => 0x1000000000#37

/-- The request word whose bits are the low `nbits` bits of `w`. The word has 37 bits and no line for a higher one
(R71; log 3). -/
def tableWord (nbits w : Nat) : BusReq := BitVec.ofNat 37 (w % 2 ^ nbits)

/-- What the decoder reads from an instruction numbered as spec/opcode_table.json numbers it. -/
def decodeTableWord (nbits w : Nat) : Option Instr :=
  match decode (tableWord nbits w) with
  | .ok i => some i
  | .error _ => none

/-- `write16 A, V, mask` (R81). -/
def write16Form (mask : ByteMask) (a : Addr) (v : Word) : Instr :=
  match mask with
  | .word => .write16Word a v
  | .highByteOnly => .write16HighByteOnly a v
  | .lowByteOnly => .write16LowByteOnly a v

/-- `writeb B, b` (R82): the even byte is the high byte of the word. -/
def expandWriteb (b : Addr) (v : Byte) : Instr :=
  if isEven b then .write16HighByteOnly b (v ++ 0#8) else .write16LowByteOnly (b - 1#16) (0#8 ++ v)

/-- `readb B` (R82): a read of the enclosing word. -/
def expandReadb (b : Addr) : Instr := .read16 (b &&& 0xFFFE#16)

/-- The byte `readb B` wants from the word read (R82). -/
def readbByte (b : Addr) (w : Word) : Byte := if isEven b then w.extractLsb' 8 8 else w.extractLsb' 0 8

/-- The request a script line stands for (R81, R82). -/
def scriptRequest : ScriptLine → Instr
  | .read16 a => .read16 a
  | .write16 a v mask => write16Form mask a v
  | .cruRead c => .cruRead c
  | .cruWrite c v => .cruWrite c v
  | .reset => .reset
  | .writeb b v => expandWriteb b v
  | .readb b => expandReadb b

end Sys2Proof
end

