-- ==== Sys2Proof/Config.lean ====
section
/-! DEFINITION. The parameters of the block (00_scope.md rule R6), the configuration surface that a reset consumes
(40_mount.md rule R101, 10_state.md rule R28), and the free values: everything the spec leaves unspecified. -/

namespace Sys2Proof

/-- `OPEN_BUS_HIGH`: the high byte of a read when no slot matches the even address (R6, R125). -/
inductive OpenBusHigh where
  | cache
  | zero
  | draw
deriving DecidableEq, Repr

/-- `OVERFLOW_POLICY`: what `mount` does with an eleventh present device (R6, R106). -/
inductive OverflowPolicy where
  | refuse
  | drop
deriving DecidableEq, Repr

/-- `MERGE_MODE`: the one merge the spec defines (R6, R141). -/
inductive MergeMode where
  | staleCache
deriving DecidableEq, Repr

/-- The parameters R6 leaves to the model's user. A value of this type is fixed for a machine: no step writes it.
The defaults are R6's where it gives one; the three widths are OPEN there and their defaults are the model's
(DESIGN CHOICE, log 5). -/
structure Params where
  openBusHigh    : OpenBusHigh    := .cache
  overflowPolicy : OverflowPolicy := .refuse
  mergeMode      : MergeMode      := .staleCache
  cfgW           : Nat            := 16
  cruAW          : Nat            := 16
  cruDW          : Nat            := 16
deriving DecidableEq, Repr

/-- `MAXDEV`, the number of registry slots (R6, R18). -/
abbrev Config.maxDev : Nat := 10

/-- `WAIT_CYCLES`, the cycles deducted per 8-bit sub-access (R6, R124). -/
def Config.waitCycles : Nat := 3

/-- `FAST_RAM_WORDS`, the 16-bit words of `fast_ram` (R6, R17). -/
def Config.fastRamWords : Nat := 0x4000

/-- `FAST_WINDOWS`, first and last byte address of each bypass window (R6, R47; conflict C1). -/
def Config.fastWindows : List (Nat × Nat) := [(0x2000, 0x3FFF), (0xA000, 0xFFFF)]

/-- A `read_fn` that is not null (R21, R183): one of the stubs of 95_test_vectors.md, or a device the spec leaves to
the environment, told apart by a number. -/
inductive ReadHandler where
  | addrLow
  | ram8
  | const (c : Byte)
  | keep
  | counter
  | external (id : Nat)
deriving DecidableEq, Repr

/-- A `write_fn` that is not null (R21, R183). -/
inductive WriteHandler where
  | ram8
  | external (id : Nat)
deriving DecidableEq, Repr

/-- An Attached Device Descriptor, the content of a populated slot (R19 to R21). The handle is the number of a device in
the environment's table; `none` is a null handler. -/
structure Descriptor where
  deviceHandle       : Nat
  addressMask        : Word
  selectPattern      : Word
  writeSelectPattern : Word
  readFn             : Option ReadHandler
  writeFn            : Option WriteHandler
deriving DecidableEq, Repr

/-- One entry of the candidate list (R101). Device and setting names are numbers (DESIGN CHOICE, log 6); the two masks are
naturals of which the model reads the low `CFG_W` bits (log 5). -/
structure Candidate where
  deviceName         : Nat
  addressMask        : Word
  selectPattern      : Word
  writeSelectPattern : Word
  readFn             : Option ReadHandler
  writeFn            : Option WriteHandler
  settingName        : Nat
  requiredBits       : Nat
  forbiddenBits      : Nat
deriving DecidableEq, Repr

/-- The operands of `reset`, which come out of band (R28, R77): the candidate list, the device instances that exist (name
and handle), the runtime configuration (setting name and value) and `fast_flag`. -/
structure Sideband where
  candidates     : List Candidate    := []
  machineDevices : List (Nat × Nat)  := []
  runtimeConfig  : List (Nat × Nat)  := []
  fastFlag       : Bool              := false
deriving DecidableEq, Repr

/-! The free values. None has a body: nothing in Lean can evaluate one or prove a value of it (log 4). The first argument
is the draw number, a counter of `State` that each draw advances. -/

/-- `latch` after a reset (R31: an arbitrary value). -/
opaque Config.latchAfterReset : Nat → Byte
/-- `low_byte_cache` after a reset (R31). -/
opaque Config.lowByteCacheAfterReset : Nat → Byte
/-- `high_byte_cache` after a reset (R31). -/
opaque Config.highByteCacheAfterReset : Nat → Byte
/-- A byte of `fast_ram` that nothing has written since the reset of that draw number (R31): draw, byte offset. -/
opaque Config.fastRamAfterReset : Nat → Nat → Byte
/-- The registry in the never-reset condition (R32: the whole state is unspecified). -/
opaque Config.registryUnspecified : Nat → Vector (Option Descriptor) Config.maxDev
/-- `devindex` in the never-reset condition (R32). -/
opaque Config.devindexUnspecified : Nat → Fin 11
/-- `use_fast_path` in the never-reset condition (R32). -/
opaque Config.useFastPathUnspecified : Nat → Bool
/-- The byte `OpenBusHigh()` draws with `OPEN_BUS_HIGH = draw` (R125). -/
opaque Config.openBusByte : Nat → Byte
/-- The answer of `EnvCruRead` when the environment has queued none (R163: an oracle): draw, CRU address. -/
opaque Config.cruAnswer : Nat → Nat → Nat
/-- A byte of a `RAM8` stub that nothing has written (95_test_vectors.md part 3: unknown): device handle, address. -/
opaque Config.deviceByte : Nat → Nat → Byte
/-- An external device's read handler (R25, R27): draw, handler, device handle, device state, address, prior; the byte and
the device's new state. -/
opaque Config.externalRead : Nat → Nat → Nat → Nat → Addr → Byte → Byte × Nat
/-- An external device's write handler (R25): draw, handler, device handle, device state, address, byte; the device's new
state. -/
opaque Config.externalWrite : Nat → Nat → Nat → Nat → Addr → Byte → Nat

end Sys2Proof
end

