-- ==== Sys2Proof/Machine/State.lean ====
section
/-! DEFINITION. The state of the block and of the environment its rules touch (10_state.md), as plain data; the reasons a
step can stop; the state after reset. -/

namespace Sys2Proof.Machine

/-- The two conditions of the block: before a reset succeeded, or after one failed, no access has a step (R32); the run
phase lies between a successful reset and the next (R180). The mount phase is inside one step. -/
inductive Phase where
  | neverReset
  | run
deriving DecidableEq, Repr

/-- The events of R26. -/
inductive Event where
  /-- `DevRd(i, a, r)` -/
  | devRd (slot : Nat) (a : Addr) (r : Byte)
  /-- `DevWr(i, a, b)` -/
  | devWr (slot : Nat) (a : Addr) (b : Byte)
  /-- `Wait(n)` -/
  | wait (n : Nat)
  /-- `FastRd(k, w)` -/
  | fastRd (k : Nat) (w : Word)
  /-- `FastWr(k, w)` -/
  | fastWr (k : Nat) (w : Word)
  /-- `CruRd(a, r)` -/
  | cruRd (a : Nat) (r : Nat)
  /-- `CruWr(a, v)` -/
  | cruWr (a : Nat) (v : Nat)
deriving DecidableEq, Repr

/-- What the last operation returned (R76), or the failure of a reset delivered to whoever invoked it (R171, R178). -/
inductive Response where
  | nothing
  | word (value16 : Word)
  | cru (value : Nat)
  | registryOverflow (deviceName : Nat)
deriving DecidableEq, Repr

/-- The three entries of the error taxonomy (R170). -/
inductive ErrorKind where
  | cfgDeviceNotFound
  | registryOverflow
  | noMatch
deriving DecidableEq, Repr

/-- A `Log(code, info)` line (R8, R103, R106). No rule reads one (R172). -/
structure LogLine where
  code       : ErrorKind
  deviceName : Nat
deriving DecidableEq, Repr

/-- Memory: address and byte pairs, addresses strictly rising; what is not listed has no value of its own (log 1). -/
abbrev Memory := List Host.Cell

/-- The state of an attached device (R25): the byte store of a `RAM8` stub, the counter of a `CTR` stub, and the state of
an external device coded as a number (log 7). -/
structure DeviceState where
  mem     : Memory := []
  counter : Nat    := 0
  inner   : Nat    := 0
deriving DecidableEq, Repr

/-- What the world outside may have changed just before a request arrives (log 8): the operands a reset would take (R28),
the CPU's own cycle count (R24), the answers waiting on the CRU (R160). `none` is no change. -/
structure Outside where
  sideband   : Option Sideband   := none
  icount     : Option Int        := none
  cruAnswers : Option (List Nat) := none
deriving DecidableEq, Repr

/-- A request the CPU side presents: the word (R71) and what changed outside before it. -/
structure Request where
  word    : BusReq
  outside : Outside := {}
deriving DecidableEq, Repr

/-- The machine. -/
@[ext]
structure State where
  /-- `registry[0 .. 9]`; `none` is an empty slot (R18, R21) -/
  registry      : Vector (Option Descriptor) Config.maxDev
  /-- the number of populated slots (R22) -/
  devindex      : Nat
  /-- `latch` (R13) -/
  latch         : Byte
  /-- `low_byte_cache` (R14) -/
  lowByteCache  : Byte
  /-- `high_byte_cache` (R15) -/
  highByteCache : Byte
  /-- `use_fast_path` (R16) -/
  useFastPath   : Bool
  /-- `fast_ram` (R17), by byte offset: word `k` has its high byte at `2k` and its low byte at `2k + 1` -/
  fastRam       : Memory
  /-- whether accesses are admitted (R32, R180) -/
  phase         : Phase
  /-- the CPU's remaining-cycle budget (R24) -/
  icount        : Int
  /-- the environment's attached devices, by handle (R25) -/
  devices       : List (Nat × DeviceState)
  /-- the configuration surface as it stands now (R28) -/
  sideband      : Sideband
  /-- the answers `EnvCruRead` gives next, in order (R160, R163) -/
  cruAnswers    : List Nat
  /-- the requests the CPU side presents, in order (R53, R71) -/
  requests      : List Request
  /-- the event history, oldest first (R26) -/
  trace         : List Event
  /-- what the last operation returned (R76, R178) -/
  response      : Response
  /-- the diagnostic messages, oldest first (R8, R172) -/
  log           : List LogLine
  /-- the parameters of R6; no step writes them -/
  params        : Params
  /-- the model's own: the draw number of the last reset, which names the bytes of `fast_ram` nothing has written -/
  ramEpoch      : Nat
  /-- the model's own: the next draw number -/
  draws         : Nat
deriving DecidableEq, Repr

/-- The block raises nothing toward the CPU (R173) and the one error it has is an outcome of `reset` after which the machine
goes on (R171, R179): there is no fault. -/
inductive Fault where
deriving DecidableEq, Repr

/-- Why a request has no step (R175). Each is safe: the model stops where the spec gives no behaviour. -/
inductive Refusal where
  /-- an instruction that has no meaning yet; safe; no arm of `exec` raises it -/
  | notModelled (mnemonic : String)
  /-- `read16` and the `write16` forms, at an odd address (R44, R121); safe -/
  | oddAddress
  /-- the decoder, `write16` with `be = 00` (R79); safe -/
  | noByteEnabled
  /-- the decoder, `kind` 101, 110 or 111 (R79); safe -/
  | reservedKind
  /-- `reset` with ill-formed operands (R107); safe -/
  | illFormedReset
  /-- any access before a reset succeeded (R32); safe -/
  | notReset
deriving DecidableEq, Repr

/-- Right after a successful reset with an empty candidate list and the bypass off (R31, R111, R202; log 2). The values of
`latch` and the caches are the model's (DESIGN CHOICE, log 2); nothing is listed in `fast_ram`, whose bytes are free (log 1). -/
def State.reset : State where
  registry      := ⟨⟨[none, none, none, none, none, none, none, none, none, none]⟩, rfl⟩
  devindex      := 0
  latch         := 0
  lowByteCache  := 0
  highByteCache := 0
  useFastPath   := false
  fastRam       := []
  phase         := .run
  icount        := 0
  devices       := []
  sideband      := {}
  cruAnswers    := []
  requests      := []
  trace         := []
  response      := .nothing
  log           := []
  params        := {}
  ramEpoch      := 0
  draws         := 1

end Sys2Proof.Machine
end

