-- ==== Sys2Proof/Machine/Operands.lean ====
section
/-! DEFINITION. How operands are taken apart and put together (30_encoding.md rule R78): byte order, the byte merge, the
windows and the word index of the bypass, the select tests, the presence test. -/

namespace Sys2Proof.Machine

/-- Bits `[7:0]` (R43, R78). -/
def lowByte (w : Word) : Byte := w.extractLsb' 0 8
/-- Bits `[15:8]` (R43, R78). -/
def highByte (w : Word) : Byte := w.extractLsb' 8 8
/-- `{high, low}`, that is `(high << 8) | low` (R129). -/
def ofBytes (high low : Byte) : Word := high ++ low

/-- `odd_address = address + 1` (R45). -/
def oddAddress (a : Addr) : Addr := a + 1#16

/-- The word a write stores or splits (R141 to R144): the byte the mask does not name comes from the caches. -/
def mergeWord (mode : MergeMode) (mask : ByteMask) (v : Word) (low high : Byte) : Word :=
  match mode, mask with
  | .staleCache, .word => v
  | .staleCache, .highByteOnly => ofBytes (highByte v) low
  | .staleCache, .lowByteOnly => ofBytes high (lowByte v)

/-- `InFastWindow(a)` (R47). -/
def inFastWindow (a : Addr) : Bool := Config.fastWindows.any fun w => decide (w.1 ≤ a.toNat ∧ a.toNat ≤ w.2)

/-- The index of the word at byte address `a`, the windows laid out one after the other from word `base` on. -/
def windowIndex : List (Nat × Nat) → Nat → Nat → Nat
  | [], base, _ => base
  | (first, last) :: ws, base, a =>
    if first ≤ a ∧ a ≤ last then base + (a - first) / 2 else windowIndex ws (base + (last + 1 - first) / 2) a

/-- `FastIndex(a)` (R48). -/
def fastIndex (a : Addr) : Nat := windowIndex Config.fastWindows 0 a.toNat

/-- The byte offset in `fast_ram` of the byte at CPU address `a` (R43: the even byte is the high one and lies first). -/
def fastOffset (a : Addr) : Nat := 2 * fastIndex a + (if isEven a then 0 else 1)

/-- `ReadMatch` for the content of a slot (R8, R21). -/
def readMatches (slot : Option Descriptor) (a : Addr) : Bool :=
  match slot with
  | none => false
  | some d => d.readFn.isSome && (a &&& d.addressMask) == d.selectPattern

/-- `WriteMatch` for the content of a slot (R8, R21). -/
def writeMatches (slot : Option Descriptor) (a : Addr) : Bool :=
  match slot with
  | none => false
  | some d => d.writeFn.isSome && (a &&& d.addressMask) == (d.selectPattern ||| d.writeSelectPattern)

/-- The first entry of a map given as a list of pairs. -/
def lookupName (m : List (Nat × Nat)) (name : Nat) : Option Nat :=
  match m with
  | [] => none
  | (n, v) :: rest => if n = name then some v else lookupName rest name

/-- A configuration value, of `CFG_W` bits (R101, R104). -/
def cfgBits (p : Params) (n : Nat) : BitVec p.cfgW := BitVec.ofNat p.cfgW n

/-- Both masks are zero: the setting is not consulted (R104). -/
def unconditional (p : Params) (c : Candidate) : Bool :=
  cfgBits p c.requiredBits == 0#p.cfgW && cfgBits p c.forbiddenBits == 0#p.cfgW

/-- The formula of R104 for a setting's value. -/
def presentAt (p : Params) (c : Candidate) (v : Nat) : Bool :=
  (cfgBits p v &&& cfgBits p c.requiredBits) == cfgBits p c.requiredBits &&
    (cfgBits p v &&& cfgBits p c.forbiddenBits) == 0#p.cfgW

/-- `Present(c, runtime_config)` (R104). -/
def present (p : Params) (config : List (Nat × Nat)) (c : Candidate) : Bool :=
  unconditional p c ||
    match lookupName config c.settingName with
    | some v => presentAt p c v
    | none => false

/-- (a) and (b) of R107 for one candidate. -/
def candidateWellFormed (p : Params) (config : List (Nat × Nat)) (c : Candidate) : Bool :=
  (c.readFn.isSome || c.writeFn.isSome) && (unconditional p c || (lookupName config c.settingName).isSome)

/-- `WellFormed(candidates, runtime_config)` (R107). -/
def sidebandWellFormed (p : Params) (sb : Sideband) : Bool :=
  sb.candidates.all (candidateWellFormed p sb.runtimeConfig)

/-- The low `CRU_AW` bits of the address field (R74). -/
def cruAddress (p : Params) (c : Word) : Nat := c.toNat % 2 ^ p.cruAW
/-- A CRU datum, the low `CRU_DW` bits (R75, R76). -/
def cruDatum (p : Params) (v : Nat) : Nat := v % 2 ^ p.cruDW

/-- The code numbers of R170. -/
def errorCode : ErrorKind → Nat
  | .cfgDeviceNotFound => 1
  | .registryOverflow => 2
  | .noMatch => 3

end Sys2Proof.Machine
end

