-- ==== Sys2Proof/Machine/Flags.lean ====
section
/-! DEFINITION. The block's only flag, `use_fast_path` (10_state.md rule R16), and the one condition on which accesses are
admitted (R32). There are no condition codes. -/

namespace Sys2Proof.Machine

/-- `use_fast_path and InFastWindow(address)`, the test of step 2 of a read and step 3 of a write (R122, R147). -/
def State.bypass (s : State) (a : Addr) : Bool := s.useFastPath && inFastWindow a

/-- The flag a reset leaves (R108). -/
def flagAtReset (sb : Sideband) : Bool := sb.fastFlag

/-- Accesses have a step only in the run phase (R32, R180). -/
def State.admitsAccess (s : State) : Bool := s.phase == .run

end Sys2Proof.Machine
end

