-- ==== Sys2Proof/Machine/Ops.lean ====
section
/-! DEFINITION. The shared operations: tables in canonical form, the bypass buffer, the primitives of 00_scope.md rule R8
(`Consume`, `DevRead`, `DevWrite`, `OpenBusHigh`, `EnvCruRead`, `EnvCruWrite`), the dispatches, the mount, the one `raise`,
and the presenting of a request. -/

namespace Sys2Proof.Machine

/-! Tables: pairs of a key and a value, keys strictly rising. -/

/-- The value listed at `k`. -/
def listed {α : Type} (t : List (Nat × α)) (k : Nat) : Option α :=
  match t with
  | [] => none
  | (k', v) :: rest => if k' = k then some v else listed rest k

/-- `t` with `v` at `k`, the keys in their order. -/
def put {α : Type} (t : List (Nat × α)) (k : Nat) (v : α) : List (Nat × α) :=
  match t with
  | [] => [(k, v)]
  | (k', v') :: rest =>
    if k < k' then (k, v) :: (k', v') :: rest
    else if k = k' then (k, v) :: rest
    else (k', v') :: put rest k v

/-- Every key is `lo` or more and they rise strictly. -/
def risingFrom {α : Type} (lo : Nat) (t : List (Nat × α)) : Bool :=
  match t with
  | [] => true
  | (k, _) :: rest => decide (lo ≤ k) && risingFrom (k + 1) rest

/-- The canonical form of a memory of `size` bytes: addresses strictly rising and below `size` (log 1). -/
def Memory.wf (size : Nat) (m : Memory) : Bool := risingFrom 0 m && m.all fun c => decide (c.1 < size)

/-! Field updates. -/

/-- An event is appended to the trace (R26). -/
def State.record (s : State) (e : Event) : State := { s with trace := s.trace ++ [e] }

/-- `Consume(n)` (R8, R24). -/
def State.consume (s : State) (n : Nat) : State :=
  { s with icount := s.icount - (n : Int), trace := s.trace ++ [.wait n] }

/-- What the operation returns (R76). -/
def State.respond (s : State) (r : Response) : State := { s with response := r }

/-- `latch <- v`. -/
def State.setLatch (s : State) (v : Byte) : State := { s with latch := v }

/-- `low_byte_cache <- low`, `high_byte_cache <- high`. -/
def State.setCaches (s : State) (low high : Byte) : State := { s with lowByteCache := low, highByteCache := high }

/-- The device of handle `h` is now `d`, and a draw number is spent. -/
def State.setDevice (s : State) (h : Nat) (d : DeviceState) : State :=
  { s with devices := put s.devices h d, draws := s.draws + 1 }

/-! The bypass buffer (R17, R48). -/

/-- The byte at offset `k`: what was last written there since the reset, else a free value (R31; log 1). -/
def State.fastByte (s : State) (k : Nat) : Byte := (listed s.fastRam k).getD (Config.fastRamAfterReset s.ramEpoch k)

/-- `fast_ram[k]`, big-endian (R43). -/
def State.fastWord (s : State) (k : Nat) : Word := ofBytes (s.fastByte (2 * k)) (s.fastByte (2 * k + 1))

/-- `fast_ram[k] <- w`, one indivisible write (R50). -/
def State.setFastWord (s : State) (k : Nat) (w : Word) : State :=
  { s with fastRam := put (put s.fastRam (2 * k) (highByte w)) (2 * k + 1) (lowByte w) }

/-! Attached devices (R25, R183). -/

/-- The device of handle `h`; one the table does not list is in its initial state (log 7). -/
def State.deviceAt (s : State) (h : Nat) : DeviceState := (listed s.devices h).getD {}

/-- A byte of a `RAM8` stub (95_test_vectors.md). -/
def DeviceState.byteAt (d : DeviceState) (h : Nat) (a : Addr) : Byte :=
  (listed d.mem a.toNat).getD (Config.deviceByte h a.toNat)

/-- A read handler run on the device `d` of handle `h`: the byte it leaves in `*out_value`, which held `prior`, and the
device after it (R25, R27, R183). -/
def runRead (f : ReadHandler) (draw h : Nat) (d : DeviceState) (a : Addr) (prior : Byte) : Byte × DeviceState :=
  match f with
  | .addrLow => (lowByte a, d)
  | .ram8 => (d.byteAt h a, d)
  | .const c => (c, d)
  | .keep => (prior, d)
  | .counter => (BitVec.ofNat 8 d.counter, { d with counter := d.counter + 1 })
  | .external id =>
    ((Config.externalRead draw id h d.inner a prior).1, { d with inner := (Config.externalRead draw id h d.inner a prior).2 })

/-- A write handler run on the device `d` of handle `h` (R25, R183). -/
def runWrite (f : WriteHandler) (draw h : Nat) (d : DeviceState) (a : Addr) (b : Byte) : DeviceState :=
  match f with
  | .ram8 => { d with mem := put d.mem a.toNat b }
  | .external id => { d with inner := Config.externalWrite draw id h d.inner a b }

/-- The slot numbers 0 to `MAXDEV - 1`, ascending (R18). -/
def slotNumbers : List Nat := List.range Config.maxDev

/-- `registry[i]` (R8); `none` is an empty slot. -/
def State.slot (s : State) (i : Nat) : Option Descriptor := (s.registry[i]?).join

/-- `ReadMatch(i, a)` (R8). -/
def State.readMatch (s : State) (i : Nat) (a : Addr) : Bool := readMatches (s.slot i) a

/-- `WriteMatch(i, a)` (R8). -/
def State.writeMatch (s : State) (i : Nat) (a : Addr) : Bool := writeMatches (s.slot i) a

/-- The device handle and read handler of slot `i`. -/
def State.reader (s : State) (i : Nat) : Option (Nat × ReadHandler) :=
  (s.slot i).bind fun d => d.readFn.map fun f => (d.deviceHandle, f)

/-- The device handle and write handler of slot `i`. -/
def State.writer (s : State) (i : Nat) : Option (Nat × WriteHandler) :=
  (s.slot i).bind fun d => d.writeFn.map fun f => (d.deviceHandle, f)

/-- `DevRead(i, a, prior)` (R8, R26, R41): the handler gets the full address. -/
def devRead (i : Nat) (a : Addr) (prior : Byte) (s : State) : Byte × State :=
  match s.reader i with
  | none => (prior, s)
  | some (h, f) =>
    let r := runRead f s.draws h (s.deviceAt h) a prior
    (r.1, (s.setDevice h r.2).record (.devRd i a r.1))

/-- `DevWrite(i, a, b)` (R8, R26, R41). -/
def devWrite (i : Nat) (a : Addr) (b : Byte) (s : State) : State :=
  match s.writer i with
  | none => s
  | some (h, f) => (s.setDevice h (runWrite f s.draws h (s.deviceAt h) a b)).record (.devWr i a b)

/-- A read dispatch over the slots `is`: every matching slot is invoked in order, each result replacing the value held
(R123, R125, R130). -/
def readScan (a : Addr) : List Nat → Byte → State → Byte × State
  | [], v, s => (v, s)
  | i :: is, v, s =>
    if s.readMatch i a then
      let r := devRead i a v s
      readScan a is r.1 r.2
    else readScan a is v s

/-- A write dispatch over the slots `is`: every matching slot is invoked in order (R145, R146). -/
def writeScan (a : Addr) (b : Byte) : List Nat → State → State
  | [], s => s
  | i :: is, s => if s.writeMatch i a then writeScan a b is (devWrite i a b s) else writeScan a b is s

/-- `OpenBusHigh()` (R8, R125). -/
def openBusHigh (s : State) : Byte × State :=
  match s.params.openBusHigh with
  | .cache => (s.highByteCache, s)
  | .zero => (0#8, s)
  | .draw => (Config.openBusByte s.draws, { s with draws := s.draws + 1 })

/-! The CRU pass-through (R160, R161). -/

/-- `EnvCruRead(c)` (R160, R163): the environment's next answer, or, where it has queued none, a free one (log 9). -/
def envCruRead (c : Nat) (s : State) : Nat × State :=
  match s.cruAnswers with
  | v :: rest => (cruDatum s.params v, { s with cruAnswers := rest })
  | [] => (cruDatum s.params (Config.cruAnswer s.draws c), { s with draws := s.draws + 1 })

/-- `EnvCruWrite(c, v)` (R161): the environment is told, by the event. -/
def envCruWrite (c v : Nat) (s : State) : State := s.record (.cruWr c v)

/-! Mount (R100 to R106). -/

/-- What the walk over the candidates ends in: the descriptors for slots 0 upward and the log lines, or the one `raise`. -/
inductive MountResult where
  | mounted (slots : List Descriptor) (log : List LogLine)
  | overflow (deviceName : Nat) (log : List LogLine)
deriving DecidableEq, Repr

/-- The descriptor of a candidate whose device has handle `h` (R105). -/
def descriptorOf (h : Nat) (c : Candidate) : Descriptor where
  deviceHandle := h
  addressMask := c.addressMask
  selectPattern := c.selectPattern
  writeSelectPattern := c.writeSelectPattern
  readFn := c.readFn
  writeFn := c.writeFn

/-- The candidates in list order (R101), with the slots filled and the lines logged so far: existence, then presence, then
capacity (R103, R104, R106, R177). -/
def mountFrom (p : Params) (sb : Sideband) : List Candidate → List Descriptor → List LogLine → MountResult
  | [], slots, log => .mounted slots log
  | c :: cs, slots, log =>
    match lookupName sb.machineDevices c.deviceName with
    | none => mountFrom p sb cs slots (log ++ [⟨.cfgDeviceNotFound, c.deviceName⟩])
    | some h =>
      if present p sb.runtimeConfig c then
        if slots.length = Config.maxDev then
          match p.overflowPolicy with
          | .refuse => .overflow c.deviceName log
          | .drop => mountFrom p sb cs slots (log ++ [⟨.registryOverflow, c.deviceName⟩])
        else mountFrom p sb cs (slots ++ [descriptorOf h c]) log
      else mountFrom p sb cs slots log

/-- `mount` (R100): the registry starts empty. -/
def mount (p : Params) (sb : Sideband) : MountResult := mountFrom p sb sb.candidates [] []

/-- The registry with these descriptors in slots 0 upward and the rest empty (R22, R102). -/
def fillRegistry (slots : List Descriptor) : Vector (Option Descriptor) Config.maxDev :=
  ⟨⟨(slots.map some ++ List.replicate Config.maxDev none).take Config.maxDev⟩, by simp⟩

/-- The end of a reset that succeeds (R31, R105, R108, R202): `latch`, the caches and every byte of `fast_ram` are drawn
afresh. -/
def resetCompleted (slots : List Descriptor) (log : List LogLine) (s : State) : State :=
  { s with
    registry := fillRegistry slots
    devindex := slots.length
    useFastPath := flagAtReset s.sideband
    latch := Config.latchAfterReset s.draws
    lowByteCache := Config.lowByteCacheAfterReset s.draws
    highByteCache := Config.highByteCacheAfterReset s.draws
    fastRam := []
    ramEpoch := s.draws
    draws := s.draws + 1
    phase := .run
    response := .nothing
    log := s.log ++ log }

/-- `raise RegistryOverflow(device_name)`, the only exception of the spec (R106, R171, R178): no state is saved and control
goes nowhere; the failure is delivered to whoever invoked the reset, and the block is in the never-reset condition, where
its whole state is unspecified (R32; log 10). There is no return from it (R179). -/
def raiseRegistryOverflow (deviceName : Nat) (log : List LogLine) (s : State) : State :=
  { s with
    registry := Config.registryUnspecified s.draws
    devindex := (Config.devindexUnspecified s.draws).val
    useFastPath := Config.useFastPathUnspecified s.draws
    latch := Config.latchAfterReset s.draws
    lowByteCache := Config.lowByteCacheAfterReset s.draws
    highByteCache := Config.highByteCacheAfterReset s.draws
    fastRam := []
    ramEpoch := s.draws
    draws := s.draws + 1
    phase := .neverReset
    response := .registryOverflow deviceName
    log := s.log ++ log }

/-! Requests. -/

/-- The changes outside that come with a request (log 8). -/
def State.arrive (s : State) (o : Outside) : State :=
  { s with
    sideband := o.sideband.getD s.sideband
    icount := o.icount.getD s.icount
    cruAnswers := o.cruAnswers.getD s.cruAnswers }

/-- The next request of the CPU side, and the state in which it is served; `none` when none is presented (R53, R201). -/
def State.fetch (s : State) : Option (BusReq × State) :=
  match s.requests with
  | [] => none
  | r :: rest => some (r.word, { s with requests := rest }.arrive r.outside)

/-- The refusal that names a reserved request (R79, R175). -/
def refusalOf : DecodeError → Refusal
  | .reservedKind => .reservedKind
  | .oddAddress => .oddAddress
  | .noByteEnabled => .noByteEnabled

/-- An access at an even address in the run phase goes on as `next`; else it is refused (R32, R44, R175, R177). -/
def wordAccess (a : Addr) (s : State) (next : State) : Host.Outcome State Fault Refusal :=
  if isEven a then
    if s.admitsAccess then .next next else .refused .notReset
  else .refused .oddAddress

/-- A CRU access in the run phase goes on as `next`; else it is refused (R32; conflict C10). -/
def cruAccess (s : State) (next : State) : Host.Outcome State Fault Refusal :=
  if s.admitsAccess then .next next else .refused .notReset

end Sys2Proof.Machine
end

