-- ==== Sys2Proof/Machine/Cru.lean ====
section
/-! DEFINITION. `CRU_READ` and `CRU_WRITE`, the pass-through (43_cru.md). -/

namespace Sys2Proof.Machine

/-- `cru_read(cru_address)` (R160): the environment's answer, unchanged; no cycle is charged. -/
def execCruRead (c : Word) (s : State) : Host.Outcome State Fault Refusal :=
  let a := cruAddress s.params c
  let r := envCruRead a s
  cruAccess s ((r.2.record (.cruRd a r.1)).respond (.cru r.1))

/-- `cru_write(cru_address, value)` (R161). -/
def execCruWrite (c : Word) (v : Word) (s : State) : Host.Outcome State Fault Refusal :=
  cruAccess s ((envCruWrite (cruAddress s.params c) (cruDatum s.params v.toNat) s).respond .nothing)

end Sys2Proof.Machine
end

