-- ==== Sys2Proof/Machine/Read.lean ====
section
/-! DEFINITION. `READ16` (41_read.md). -/

namespace Sys2Proof.Machine

/-- Step 2, the bypass path (R122): the caches follow the word, `latch` does not; no cycle is charged. -/
def readBypass (a : Addr) (s : State) : State :=
  let w := s.fastWord (fastIndex a)
  ((s.setCaches (lowByte w) (highByte w)).record (.fastRd (fastIndex a) w)).respond (.word w)

/-- Steps 3 and 4: the low-byte dispatch into `latch` and its wait states (R123, R124). -/
def readLowDispatch (a : Addr) (s : State) : State :=
  let r := readScan (oddAddress a) slotNumbers s.latch s
  (r.2.setLatch r.1).consume Config.waitCycles

/-- Steps 5 and 6: the high-byte dispatch and its wait states; the byte and the state (R125, R127). -/
def readHighDispatch (a : Addr) (s : State) : Byte × State :=
  let start := openBusHigh s
  let r := readScan a slotNumbers start.1 start.2
  (r.1, r.2.consume Config.waitCycles)

/-- Steps 3 to 8, the dispatch path (R120, R128, R129). -/
def readDispatch (a : Addr) (s : State) : State :=
  let r := readHighDispatch a (readLowDispatch a s)
  (r.2.setCaches r.2.latch r.1).respond (.word (ofBytes r.1 r.2.latch))

/-- `read16(address)` (R120). -/
def execRead16 (a : Addr) (s : State) : Host.Outcome State Fault Refusal :=
  wordAccess a s (if s.bypass a then readBypass a s else readDispatch a s)

end Sys2Proof.Machine
end

