-- ==== Sys2Proof/Machine/Reset.lean ====
section
/-! DEFINITION. `RESET`, which runs `mount` (40_mount.md). -/

namespace Sys2Proof.Machine

/-- `reset(candidates, machine_devices, runtime_config, fast_flag)` (R100), on the operands that stand in `sideband`: refused
where they are ill-formed (R107), failed where the registry overflows under `refuse` (R106), else completed. -/
def execReset (s : State) : Host.Outcome State Fault Refusal :=
  if sidebandWellFormed s.params s.sideband then
    match mount s.params s.sideband with
    | .mounted slots log => .next (resetCompleted slots log s)
    | .overflow name log => .next (raiseRegistryOverflow name log s)
  else .refused .illFormedReset

end Sys2Proof.Machine
end

