-- ==== Sys2Proof/Machine/Write.lean ====
section
/-! DEFINITION. `WRITE16` in its three forms (42_write.md). -/

namespace Sys2Proof.Machine

/-- The merged word `v` of steps 1 and 2 (R141 to R144). -/
def State.merged (s : State) (mask : ByteMask) (v : Word) : Word :=
  mergeWord s.params.mergeMode mask v s.lowByteCache s.highByteCache

/-- Step 3, the bypass path (R147). -/
def writeBypass (a : Addr) (v : Word) (s : State) : State :=
  ((s.setFastWord (fastIndex a) v).record (.fastWr (fastIndex a) v)).respond .nothing

/-- Steps 4 to 7, the dispatch path (R145, R146, R148). -/
def writeDispatch (a : Addr) (v : Word) (s : State) : State :=
  let s1 := (writeScan (oddAddress a) (lowByte v) slotNumbers s).consume Config.waitCycles
  ((writeScan a (highByte v) slotNumbers s1).consume Config.waitCycles).respond .nothing

/-- `write16(address, value16, byte_mask)` (R140): the merge comes before the bypass test (R141, R177). -/
def write16 (mask : ByteMask) (a : Addr) (v : Word) (s : State) : Host.Outcome State Fault Refusal :=
  wordAccess a s (if s.bypass a then writeBypass a (s.merged mask v) s else writeDispatch a (s.merged mask v) s)

/-- Form `WORD` (R144). -/
def execWrite16Word (a : Addr) (v : Word) (s : State) : Host.Outcome State Fault Refusal := write16 .word a v s

/-- Form `HIGH_BYTE_ONLY` (R142). -/
def execWrite16HighByteOnly (a : Addr) (v : Word) (s : State) : Host.Outcome State Fault Refusal :=
  write16 .highByteOnly a v s

/-- Form `LOW_BYTE_ONLY` (R143). -/
def execWrite16LowByteOnly (a : Addr) (v : Word) (s : State) : Host.Outcome State Fault Refusal :=
  write16 .lowByteOnly a v s

end Sys2Proof.Machine
end

