-- ==== Sys2Proof/Machine/Dispatch.lean ====
section
/-! DEFINITION. One arm per operation of spec/opcode_table.json. -/

namespace Sys2Proof.Machine

def exec (i : Instr) (s : State) : Host.Outcome State Fault Refusal :=
  match i with
  | .read16 a => Sys2Proof.Machine.execRead16 a s
  | .write16Word a v => Sys2Proof.Machine.execWrite16Word a v s
  | .write16HighByteOnly a v => Sys2Proof.Machine.execWrite16HighByteOnly a v s
  | .write16LowByteOnly a v => Sys2Proof.Machine.execWrite16LowByteOnly a v s
  | .cruRead c => Sys2Proof.Machine.execCruRead c s
  | .cruWrite c v => Sys2Proof.Machine.execCruWrite c v s
  | .reset => Sys2Proof.Machine.execReset s

end Sys2Proof.Machine
end

