-- ==== Sys2Proof/Machine/Step.lean ====
section
/-! DEFINITION. One step: the next request of the CPU side is decoded and served (R53). The block has no program counter
(R12); its requests stand in `State.requests`. -/

namespace Sys2Proof.Machine

/-- Serve the next request; with none presented the block is idle (R201). A reserved request is refused by name (R79). -/
def step (s : State) : Host.Outcome State Fault Refusal :=
  match s.fetch with
  | none => .next s
  | some (w, s') =>
    match decode w with
    | .ok i => exec i s'
    | .error e => .refused (refusalOf e)

/-- `s` with that word as the request the CPU side presents next (log 3). -/
def State.withFetchWord (s : State) (nbits w : Nat) : State :=
  { s with requests := ⟨tableWord nbits w, {}⟩ :: s.requests }

end Sys2Proof.Machine
end

