-- ==== Sys2Proof/Safety.lean ====
section
/-! DEFINITION. The terms claims use: the invariant every step keeps, `Disjoint` (10_state.md rule R23), which slots answer
an address, what a history of events costs, and a run of several operations. -/

namespace Sys2Proof.Machine

/-- A device's byte store is in canonical form, below 2^16 (R41). -/
def DeviceState.wf (d : DeviceState) : Bool := Memory.wf 0x10000 d.mem

/-- A populated slot has at least one handler (R21). -/
def descriptorWf (d : Descriptor) : Bool := d.readFn.isSome || d.writeFn.isSome

/-- Slot `i` of a registry of `n` mounted devices: populated below `n` and empty from `n` on (R22). -/
def slotWf (n i : Nat) (slot : Option Descriptor) : Bool :=
  match slot with
  | some d => decide (i < n) && descriptorWf d
  | none => decide (n ≤ i)

/-- The slots below `devindex` are populated, each with a handler, and the others empty (R21, R22). -/
def State.slotsWf (s : State) : Bool := slotNumbers.all fun i => slotWf s.devindex i (s.slot i)

/-- What holds of every state a step leads to. -/
structure State.Inv (s : State) : Prop where
  /-- `fast_ram` is in canonical form and within its `FAST_RAM_WORDS` words (R17) -/
  fastRam : Memory.wf (2 * Config.fastRamWords) s.fastRam = true
  /-- the device table is in canonical form -/
  deviceKeys : risingFrom 0 s.devices = true
  /-- every device's byte store is in canonical form -/
  deviceMems : (s.devices.all fun e => e.2.wf) = true
  /-- `devindex` is 0 to `MAXDEV` (R22) -/
  devindex : s.devindex ≤ Config.maxDev
  /-- the registry is filled without gaps, whenever accesses are admitted (R22, R31) -/
  slots : s.phase = .run → s.slotsWf = true
  /-- the draw that names the unwritten bytes of `fast_ram` is an earlier one -/
  epoch : s.ramEpoch < s.draws

/-- The slots whose read handler answers `a`, ascending. -/
def State.readSlots (s : State) (a : Addr) : List Nat := slotNumbers.filter fun i => s.readMatch i a

/-- The slots whose write handler answers `a`, ascending. -/
def State.writeSlots (s : State) (a : Addr) : List Nat := slotNumbers.filter fun i => s.writeMatch i a

/-- `Disjoint(registry)` (R23): at most one slot answers any address, for reads and for writes. -/
def State.Disjoint (s : State) : Prop :=
  ∀ a : Addr, (s.readSlots a).length ≤ 1 ∧ (s.writeSlots a).length ≤ 1

/-- The value a dispatch ends with: the byte of its last call, or the one it began with (R130). -/
def lastByte (v : Byte) (reads : List (Nat × Byte)) : Byte := reads.foldl (fun _ r => r.2) v

/-- What the calls of one read dispatch give: each slot called with the byte its handler left, the devices after the last
call, and the next draw number (log 4). -/
structure ReadCalls where
  bytes   : List (Nat × Byte)
  devices : Nat → DeviceState
  draws   : Nat

/-- The calls of the slots `is` for address `a`, one after the other: each handler gets the byte held before it as `prior`
and its device as the call before left it (R27, R123, R125, R130). `devices` is every device before the first call. -/
def readCalls (reader : Nat → Option (Nat × ReadHandler)) (a : Addr) :
    List Nat → Byte → (Nat → DeviceState) → Nat → ReadCalls
  | [], _, devices, n => ⟨[], devices, n⟩
  | i :: is, prior, devices, n =>
    match reader i with
    | none => readCalls reader a is prior devices n
    | some (h, f) =>
      let r := runRead f n h (devices h) a prior
      let rest := readCalls reader a is r.1 (fun d => if d = h then r.2 else devices d) (n + 1)
      ⟨(i, r.1) :: rest.bytes, rest.devices, rest.draws⟩

/-- The devices after the slots `is` are written `b` at address `a`, one after the other, and the next draw number
(R145, R146). -/
def writeCalls (writer : Nat → Option (Nat × WriteHandler)) (a : Addr) (b : Byte) :
    List Nat → (Nat → DeviceState) → Nat → (Nat → DeviceState) × Nat
  | [], devices, n => (devices, n)
  | i :: is, devices, n =>
    match writer i with
    | none => writeCalls writer a b is devices n
    | some (h, f) =>
      writeCalls writer a b is (fun d => if d = h then runWrite f n h (devices h) a b else devices d) (n + 1)

/-- The handler leaves `*out_value` as it found it, whatever its device and the address (R27). -/
def returnsPrior (f : ReadHandler) : Prop :=
  ∀ (n h : Nat) (d : DeviceState) (a : Addr) (v : Byte), (runRead f n h d a v).1 = v

/-- Every read handler of the slots `is` returns `prior`. -/
def State.allReturnPrior (s : State) (is : List Nat) : Prop :=
  ∀ i ∈ is, ∀ h f, s.reader i = some (h, f) → returnsPrior f

/-- The word each form writes (R142, R143, R144). -/
def mergedWord (s : State) (v : Word) : ByteMask → Word
  | .word => v
  | .highByteOnly => ofBytes (highByte v) s.lowByteCache
  | .lowByteOnly => ofBytes s.highByteCache (lowByte v)

/-- The cycles of one event. -/
def Event.cycles : Event → Int
  | .wait n => n
  | .devRd _ _ _ => 0
  | .devWr _ _ _ => 0
  | .fastRd _ _ => 0
  | .fastWr _ _ => 0
  | .cruRd _ _ => 0
  | .cruWr _ _ => 0

/-- The cycles a history has charged (R24, R181). -/
def cyclesOf : List Event → Int
  | [] => 0
  | e :: es => e.cycles + cyclesOf es

/-- The event is a call of a device handler. -/
def Event.isDevice : Event → Bool
  | .devRd _ _ _ => true
  | .devWr _ _ _ => true
  | .wait _ => false
  | .fastRd _ _ => false
  | .fastWr _ _ => false
  | .cruRd _ _ => false
  | .cruWr _ _ => false

/-- The address of a device call. -/
def Event.deviceAddress : Event → Option Addr
  | .devRd _ a _ => some a
  | .devWr _ a _ => some a
  | .wait _ => none
  | .fastRd _ _ => none
  | .fastWr _ _ => none
  | .cruRd _ _ => none
  | .cruWr _ _ => none

/-- The event is a call of the environment's CRU handlers. -/
def Event.isCru : Event → Bool
  | .cruRd _ _ => true
  | .cruWr _ _ => true
  | .wait _ => false
  | .devRd _ _ _ => false
  | .devWr _ _ _ => false
  | .fastRd _ _ => false
  | .fastWr _ _ => false

/-- The operation is a `read16` or a `write16` that does not go to the bypass buffer (R181). -/
def State.dispatches (s : State) : Instr → Bool
  | .read16 a => !s.bypass a
  | .write16Word a _ => !s.bypass a
  | .write16HighByteOnly a _ => !s.bypass a
  | .write16LowByteOnly a _ => !s.bypass a
  | .cruRead _ => false
  | .cruWrite _ _ => false
  | .reset => false

/-- The operations `is` one after the other, with the number of them that took the dispatch path; the first stop ends it
(R53). -/
def runAll : List Instr → State → Nat → Host.Outcome (State × Nat) Fault Refusal
  | [], s, n => .next (s, n)
  | i :: is, s, n =>
    match exec i s with
    | .next t => runAll is t (if s.dispatches i then n + 1 else n)
    | .fault e => .fault e
    | .refused r => .refused r

/-- The operands of a `reset` whose device exists and whose presence condition holds, in list order, each with the handle of
its device (R103, R104, R105). -/
def mountable (p : Params) (sb : Sideband) : List (Nat × Candidate) :=
  sb.candidates.filterMap fun c =>
    if present p sb.runtimeConfig c then (lookupName sb.machineDevices c.deviceName).map fun h => (h, c) else none

/-- The lines a reset under `drop` logs, in list order: a candidate whose device is missing (R103), and one that is
mountable when ten before it were (R106). -/
def dropLines (p : Params) (sb : Sideband) : List LogLine :=
  sb.candidates.zipIdx.filterMap fun (c, k) =>
    if (lookupName sb.machineDevices c.deviceName).isNone then some ⟨.cfgDeviceNotFound, c.deviceName⟩
    else if present p sb.runtimeConfig c &&
        decide (Config.maxDev ≤ (mountable p { sb with candidates := sb.candidates.take k }).length) then
      some ⟨.registryOverflow, c.deviceName⟩
    else none

/-- When an operation has a step (R175): its operands are legal; a `reset` has well-formed operands out of band; any other
operation comes in the run phase. -/
def admitted (i : Instr) (s : State) : Prop :=
  i.wellFormed = true ∧
    match i with
    | .reset => sidebandWellFormed s.params s.sideband = true
    | .read16 _ => s.phase = .run
    | .write16Word _ _ => s.phase = .run
    | .write16HighByteOnly _ _ => s.phase = .run
    | .write16LowByteOnly _ _ => s.phase = .run
    | .cruRead _ => s.phase = .run
    | .cruWrite _ _ => s.phase = .run

end Sys2Proof.Machine
end

