-- ==== Sys2Proof/Certificates/Slice0/Obligations.lean ====
section
/-! DEFINITION. The statements for the provers, each from a rule of spec/. No statement rests on a value the model chose for
the state after reset (log 2) unless its docstring says so, and none on a free value (log 4). -/

open Sys2Proof Sys2Proof.Machine

/-! ## `READ16` -/

/-- R122. A read in a window with the bypass on returns the buffer word, moves its halves into the caches, leaves `latch`,
charges nothing and calls no device. The next state is given whole, so every other field is its frame. -/
def Obligations.BypassReadReturnsBufferWord : Prop :=
  ∀ (s : State) (a : Addr), isEven a = true → s.phase = .run → s.useFastPath = true → inFastWindow a = true →
    exec (.read16 a) s = .next { s with
      lowByteCache := lowByte (s.fastWord (fastIndex a))
      highByteCache := highByte (s.fastWord (fastIndex a))
      trace := s.trace ++ [.fastRd (fastIndex a) (s.fastWord (fastIndex a))]
      response := .word (s.fastWord (fastIndex a)) }

/-- R120, R123 to R125, R127 to R130, R54. A read on the dispatch path completes: every slot that answers the odd address is
called in ascending order, then 3 cycles, then every slot that answers the even address, then 3 cycles; the last byte of
each dispatch is kept; the word is the two bytes, high first. Everything else but the device table (and the model's draw
number) is unchanged. -/
def Obligations.DispatchReadCallsSlotsInOrder : Prop :=
  ∀ (s : State) (a : Addr), isEven a = true → s.phase = .run → s.bypass a = false →
    ∃ (t : State) (low high : List (Nat × Byte)) (start : Byte),
      exec (.read16 a) s = .next t ∧
      low.map Prod.fst = s.readSlots (oddAddress a) ∧
      high.map Prod.fst = s.readSlots a ∧
      t.trace = s.trace ++ low.map (fun r => Event.devRd r.1 (oddAddress a) r.2) ++ [Event.wait 3] ++
        high.map (fun r => Event.devRd r.1 a r.2) ++ [Event.wait 3] ∧
      (s.params.openBusHigh = .cache → start = s.highByteCache) ∧
      (s.params.openBusHigh = .zero → start = 0#8) ∧
      t.latch = lastByte s.latch low ∧
      t.lowByteCache = t.latch ∧
      t.highByteCache = lastByte start high ∧
      t.response = .word (ofBytes t.highByteCache t.latch) ∧
      t.icount = s.icount - 6 ∧
      t = { s with latch := t.latch, lowByteCache := t.lowByteCache, highByteCache := t.highByteCache, icount := t.icount,
                   trace := t.trace, response := t.response, devices := t.devices, draws := t.draws }

/-- R123, R125, R126, R130, R27, R41, R184. Whichever slots answer, none, one or several at either byte, the bytes of a
read on the dispatch path are what their handlers give: each is called with the full address, with its device as the call
before left it, and with the byte held so far as `prior`, beginning with `latch` for the odd address and with
`OpenBusHigh()` for the even one; the last byte is kept, every device is left as its last call leaves it, and a device no
call reaches is as before. (`n` is the draw number of the first even-address call, the model's own, log 4.) -/
def Obligations.ReadReturnsTheHandlersBytes : Prop :=
  ∀ (s : State) (a : Addr), isEven a = true → s.phase = .run → s.bypass a = false →
    ∃ (t : State) (start : Byte) (n : Nat),
      exec (.read16 a) s = .next t ∧
      let low := readCalls s.reader (oddAddress a) (s.readSlots (oddAddress a)) s.latch s.deviceAt s.draws
      let high := readCalls s.reader a (s.readSlots a) start low.devices n
      (s.params.openBusHigh = .cache → start = s.highByteCache ∧ n = low.draws) ∧
      (s.params.openBusHigh = .zero → start = 0#8 ∧ n = low.draws) ∧
      t.trace = s.trace ++ low.bytes.map (fun r => Event.devRd r.1 (oddAddress a) r.2) ++ [Event.wait 3] ++
        high.bytes.map (fun r => Event.devRd r.1 a r.2) ++ [Event.wait 3] ∧
      t.latch = lastByte s.latch low.bytes ∧
      t.highByteCache = lastByte start high.bytes ∧
      t.response = .word (ofBytes (lastByte start high.bytes) (lastByte s.latch low.bytes)) ∧
      ∀ d, t.deviceAt d = high.devices d

/-- R123, R125, R27, R41, R184. When one slot answers the odd address and one the even address, the low byte is what the
first's handler gives for the full odd address with `latch` as `prior`, the high byte what the second's gives after that for
the even address, and each device is left as its handler leaves it; every other device is untouched. -/
def Obligations.OneReaderPerByteReturnsItsByte : Prop :=
  ∀ (s : State) (a : Addr) (i j h k : Nat) (f g : ReadHandler), isEven a = true → s.phase = .run → s.bypass a = false →
    s.readSlots (oddAddress a) = [i] → s.readSlots a = [j] → s.reader i = some (h, f) → s.reader j = some (k, g) →
    ∃ (t : State) (start : Byte) (n : Nat),
      exec (.read16 a) s = .next t ∧
      (s.params.openBusHigh = .cache → start = s.highByteCache) ∧
      (s.params.openBusHigh = .zero → start = 0#8) ∧
      (let low := runRead f s.draws h (s.deviceAt h) (oddAddress a) s.latch
       let between := if k = h then low.2 else s.deviceAt k
       let high := runRead g n k between a start
       t.latch = low.1 ∧ t.response = .word (ofBytes high.1 low.1) ∧
       t.deviceAt k = high.2 ∧ (h ≠ k → t.deviceAt h = low.2)) ∧
      ∀ d, d ≠ h → d ≠ k → t.deviceAt d = s.deviceAt d

/-- R126. Where no slot answers the odd address the low byte of the result is the old `latch`; where none answers the even
address the high byte is `OpenBusHigh()`; neither is an error and either way the read costs 6. -/
def Obligations.UnansweredReadIsStale : Prop :=
  ∀ (s : State) (a : Addr), isEven a = true → s.phase = .run → s.bypass a = false →
    ∃ (t : State) (w : Word),
      exec (.read16 a) s = .next t ∧ t.response = .word w ∧ t.icount = s.icount - 6 ∧
      (s.readSlots (oddAddress a) = [] → lowByte w = s.latch ∧ t.latch = s.latch) ∧
      (s.readSlots a = [] →
        (s.params.openBusHigh = .cache → highByte w = s.highByteCache) ∧
        (s.params.openBusHigh = .zero → highByte w = 0#8))

/-- R52, R128, R210. A read no slot answers at either address changes the caches, the cycle count, the trace and the
response (and with `draw` the model's draw number), and nothing else: no device is touched. -/
def Obligations.UnmappedReadRewritesTheCaches : Prop :=
  ∀ (s : State) (a : Addr), isEven a = true → s.phase = .run → s.bypass a = false →
    s.readSlots (oddAddress a) = [] → s.readSlots a = [] →
    ∃ (d : Byte) (n : Nat),
      (s.params.openBusHigh = .cache → d = s.highByteCache ∧ n = s.draws) ∧
      (s.params.openBusHigh = .zero → d = 0#8 ∧ n = s.draws) ∧
      exec (.read16 a) s = .next { s with
        lowByteCache := s.latch, highByteCache := d, icount := s.icount - 6
        trace := s.trace ++ [.wait 3, .wait 3], response := .word (ofBytes d s.latch), draws := n }

/-- R14, R15, R43. Whatever its path, a read leaves the two halves of the word it returns in the caches. -/
def Obligations.CachesHoldTheLastWordRead : Prop :=
  ∀ (s t : State) (a : Addr), exec (.read16 a) s = .next t →
    ∃ w, t.response = .word w ∧ t.lowByteCache = lowByte w ∧ t.highByteCache = highByte w

/-- R45. On an even address `odd_address` is `address | 1`, has the same bits 15:1, and never wraps. -/
def Obligations.OddAddressNeverWraps : Prop :=
  ∀ a : Addr, isEven a = true →
    oddAddress a = a ||| 1#16 ∧ (oddAddress a).toNat = a.toNat + 1 ∧
      (oddAddress a).extractLsb' 1 15 = a.extractLsb' 1 15

/-! ## `WRITE16`

`write16Form` names the three operations `WRITE16.WORD`, `WRITE16.HIGH_BYTE_ONLY` and `WRITE16.LOW_BYTE_ONLY` by their mask. -/

/-- R147, R141 to R144. A write of any of the three forms into a window with the bypass on stores the merged word at the
word of `FastIndex(address)`, charges nothing, calls no device and leaves `latch` and the caches; every other byte of the
buffer reads as before. -/
def Obligations.BypassWriteStoresMergedWord : Prop :=
  ∀ (s : State) (mask : ByteMask) (a : Addr) (v : Word), isEven a = true → s.phase = .run → s.useFastPath = true →
    inFastWindow a = true →
    ∃ t, exec (write16Form mask a v) s = .next t ∧
      t = { s with fastRam := t.fastRam, response := .nothing,
                   trace := s.trace ++ [.fastWr (fastIndex a) (mergedWord s v mask)] } ∧
      t.fastByte (2 * fastIndex a) = highByte (mergedWord s v mask) ∧
      t.fastByte (2 * fastIndex a + 1) = lowByte (mergedWord s v mask) ∧
      ∀ k, k ≠ 2 * fastIndex a → k ≠ 2 * fastIndex a + 1 → t.fastByte k = s.fastByte k

/-- R145, R146, R148, R54, R150. A write of any of the three forms on the dispatch path completes: every slot that accepts
the odd address gets the low byte of the merged word, in ascending order, then 3 cycles, then every slot that accepts the
even address gets the high byte, then 3 cycles. Nothing but the device table (and the draw number) is changed besides; in
particular every byte of `fast_ram`, `latch` and the caches. -/
def Obligations.DispatchWriteCallsSlotsInOrder : Prop :=
  ∀ (s : State) (mask : ByteMask) (a : Addr) (v : Word), isEven a = true → s.phase = .run → s.bypass a = false →
    ∃ t, exec (write16Form mask a v) s = .next t ∧
      t.trace = s.trace ++
        (s.writeSlots (oddAddress a)).map (fun i => Event.devWr i (oddAddress a) (lowByte (mergedWord s v mask))) ++
        [Event.wait 3] ++
        (s.writeSlots a).map (fun i => Event.devWr i a (highByte (mergedWord s v mask))) ++ [Event.wait 3] ∧
      t = { s with icount := s.icount - 6, trace := t.trace, response := .nothing, devices := t.devices, draws := t.draws }

/-- R145, R146, R152, R41, R184. Whichever slots accept, none, one or several at either byte, a write of any of the three
forms on the dispatch path leaves the devices as their handlers leave them: each accepting handler is called with the full
address and its byte of the merged word, on its device as the call before left it, the odd address first; a device no call
reaches is as before. -/
def Obligations.WriteRunsTheHandlers : Prop :=
  ∀ (s : State) (mask : ByteMask) (a : Addr) (v : Word), isEven a = true → s.phase = .run → s.bypass a = false →
    ∃ t, exec (write16Form mask a v) s = .next t ∧
      let low := writeCalls s.writer (oddAddress a) (lowByte (mergedWord s v mask)) (s.writeSlots (oddAddress a))
        s.deviceAt s.draws
      let high := writeCalls s.writer a (highByte (mergedWord s v mask)) (s.writeSlots a) low.1 low.2
      ∀ d, t.deviceAt d = high.1 d

/-- R145, R146, R41, R184. When one slot accepts the odd address and one the even address, each device is left as its
handler leaves it, called with the full address and its byte of the merged word, and every other device is untouched. -/
def Obligations.OneWriterPerByteGetsItsByte : Prop :=
  ∀ (s : State) (mask : ByteMask) (a : Addr) (v : Word) (i j h k : Nat) (f g : WriteHandler), isEven a = true →
    s.phase = .run → s.bypass a = false → s.writeSlots (oddAddress a) = [i] → s.writeSlots a = [j] →
    s.writer i = some (h, f) → s.writer j = some (k, g) →
    ∃ (t : State) (n : Nat), exec (write16Form mask a v) s = .next t ∧
      (let low := runWrite f s.draws h (s.deviceAt h) (oddAddress a) (lowByte (mergedWord s v mask))
       let between := if k = h then low else s.deviceAt k
       t.deviceAt k = runWrite g n k between a (highByte (mergedWord s v mask)) ∧ (h ≠ k → t.deviceAt h = low)) ∧
      ∀ d, d ≠ h → d ≠ k → t.deviceAt d = s.deviceAt d

/-- R150. A write no slot accepts at either address is a no-op that still costs 6: no device is altered, nothing raised. -/
def Obligations.UnmappedWriteIsANoOp : Prop :=
  ∀ (s : State) (mask : ByteMask) (a : Addr) (v : Word), isEven a = true → s.phase = .run → s.bypass a = false →
    s.writeSlots (oddAddress a) = [] → s.writeSlots a = [] →
    exec (write16Form mask a v) s =
      .next { s with icount := s.icount - 6, trace := s.trace ++ [.wait 3, .wait 3], response := .nothing }

/-- R149. A write of any form, on either path, leaves `latch` and the caches; so a byte-masked write after it merges with
the same cached bytes. -/
def Obligations.WritesLeaveLatchAndCaches : Prop :=
  ∀ (s t : State) (mask : ByteMask) (a : Addr) (v : Word), exec (write16Form mask a v) s = .next t →
    t.latch = s.latch ∧ t.lowByteCache = s.lowByteCache ∧ t.highByteCache = s.highByteCache ∧
      ∀ (mask' : ByteMask) (v' : Word), t.merged mask' v' = mergedWord s v' mask'

/-- R141, R205, R142, R143, R177 (the source's P4). A byte-masked write takes the byte the CPU did not name from the word
the last `read16` returned, whatever address that read had; it reads no device. On the dispatch path both bytes go to the
devices, and into a window with the bypass on the merged word is stored in the buffer. -/
def Obligations.ByteWriteMergesTheLastWordRead : Prop :=
  ∀ (s t : State) (a b : Addr) (v : Word), exec (.read16 a) s = .next t → isEven b = true →
    ∃ (w : Word) (u u' : State), t.response = .word w ∧
      exec (.write16HighByteOnly b v) t = .next u ∧ exec (.write16LowByteOnly b v) t = .next u' ∧
      (t.bypass b = false →
        u.trace = t.trace ++ (t.writeSlots (oddAddress b)).map (fun i => Event.devWr i (oddAddress b) (lowByte w)) ++
          [Event.wait 3] ++ (t.writeSlots b).map (fun i => Event.devWr i b (highByte v)) ++ [Event.wait 3] ∧
        u'.trace = t.trace ++ (t.writeSlots (oddAddress b)).map (fun i => Event.devWr i (oddAddress b) (lowByte v)) ++
          [Event.wait 3] ++ (t.writeSlots b).map (fun i => Event.devWr i b (highByte w)) ++ [Event.wait 3]) ∧
      (t.bypass b = true →
        u.trace = t.trace ++ [.fastWr (fastIndex b) (ofBytes (highByte v) (lowByte w))] ∧
        u.fastWord (fastIndex b) = ofBytes (highByte v) (lowByte w) ∧
        u'.trace = t.trace ++ [.fastWr (fastIndex b) (ofBytes (highByte w) (lowByte v))] ∧
        u'.fastWord (fastIndex b) = ofBytes (highByte w) (lowByte v))

/-- R57, R51 (the source's P5). A word written into a window is what the next read of that address returns, and a read of
any other word of the buffer returns what it held. -/
def Obligations.BypassReadAfterWrite : Prop :=
  ∀ (s : State) (a b : Addr) (v : Word), isEven a = true → isEven b = true → s.phase = .run → s.bypass a = true →
    s.bypass b = true →
    ∃ t u, exec (.write16Word a v) s = .next t ∧ exec (.read16 b) t = .next u ∧
      u.response = .word (if b = a then v else s.fastWord (fastIndex b))

/-- R43, R123, R145 with the RAM8 stub of 95_test_vectors.md (PG1). A word written to a RAM8 device that alone answers both
bytes, for reads and for writes, is what a read of that address returns. -/
def Obligations.Ram8ReadAfterWrite : Prop :=
  ∀ (s : State) (a : Addr) (v : Word) (i h : Nat), isEven a = true → s.phase = .run → s.bypass a = false →
    s.readSlots (oddAddress a) = [i] → s.readSlots a = [i] → s.writeSlots (oddAddress a) = [i] → s.writeSlots a = [i] →
    s.reader i = some (h, .ram8) → s.writer i = some (h, .ram8) →
    ∃ t u, exec (.write16Word a v) s = .next t ∧ exec (.read16 a) t = .next u ∧ u.response = .word v

/-- R82, R43. `writeb B, b` into a window with the bypass on stores `b` at the byte of `B` (the even byte is the high one),
the other byte of that word becomes the cached one, and every other byte of the buffer reads as before. -/
def Obligations.WritebStoresOneLane : Prop :=
  ∀ (s : State) (b : Addr) (v : Byte), s.phase = .run → s.useFastPath = true → inFastWindow b = true →
    ∃ t, exec (expandWriteb b v) s = .next t ∧
      t.fastByte (fastOffset b) = v ∧
      (isEven b = true → t.fastByte (fastOffset b + 1) = s.lowByteCache) ∧
      (isEven b = false → t.fastByte (fastOffset b - 1) = s.highByteCache) ∧
      ∀ k, k / 2 ≠ fastIndex b → t.fastByte k = s.fastByte k

/-! ## CRU -/

/-- R160, R76. `cru_read` completes in the run phase: one event with the low `CRU_AW` bits of the address and the
environment's answer is appended, that answer, of `CRU_DW` bits, is returned as it is, and nothing else of the block or of
the CPU changes. The last clause is the model's choice, not the spec's (log 9, DESIGN CHOICE): where answers are queued, the
environment's answer is the first of the queue `cruAnswers`, taken to its low `CRU_DW` bits, and it leaves the queue without
a draw. -/
def Obligations.CruReadPassesThrough : Prop :=
  ∀ (s : State) (c : Word), s.phase = .run →
    ∃ (t : State) (r : Nat), exec (.cruRead c) s = .next t ∧ r < 2 ^ s.params.cruDW ∧
      t = { s with trace := s.trace ++ [.cruRd (c.toNat % 2 ^ s.params.cruAW) r], response := .cru r,
                   cruAnswers := t.cruAnswers, draws := t.draws } ∧
      ∀ v rest, s.cruAnswers = v :: rest → r = v % 2 ^ s.params.cruDW ∧ t.cruAnswers = rest ∧ t.draws = s.draws

/-- R161. `cru_write` forwards address and value and does nothing else. -/
def Obligations.CruWritePassesThrough : Prop :=
  ∀ (s : State) (c v : Word), s.phase = .run →
    exec (.cruWrite c v) s = .next { s with
      trace := s.trace ++ [.cruWr (c.toNat % 2 ^ s.params.cruAW) (v.toNat % 2 ^ s.params.cruDW)], response := .nothing }

/-- R162, first half. A CRU operation behaves alike whatever the registry, the bypass, `latch`, the caches, `fast_ram` and
the devices hold. That the environment gives the same answer in the two runs is the model's choice, not the spec's, which
leaves the answer open (R163): the queued answers are the same (log 9), and where none is queued the two runs draw with
equal draw numbers (log 4, DESIGN CHOICE). -/
def Obligations.CruIgnoresTheMultiplexer : Prop :=
  ∀ (s t u : State) (i : Instr), (∃ c, i = .cruRead c) ∨ (∃ c v, i = .cruWrite c v) → exec i s = .next t →
    exec i { s with registry := u.registry, devindex := u.devindex, useFastPath := u.useFastPath, latch := u.latch,
                    lowByteCache := u.lowByteCache, highByteCache := u.highByteCache, fastRam := u.fastRam,
                    ramEpoch := u.ramEpoch, devices := u.devices } =
      .next { t with registry := u.registry, devindex := u.devindex, useFastPath := u.useFastPath, latch := u.latch,
                     lowByteCache := u.lowByteCache, highByteCache := u.highByteCache, fastRam := u.fastRam,
                     ramEpoch := u.ramEpoch, devices := u.devices }

/-- R162, second half, and R26. Over all operations: a CRU operation calls no device, and any other operation calls no CRU
handler and takes no CRU answer. The trace only grows. -/
def Obligations.CruAndDeviceCallsAreSeparate : Prop :=
  ∀ (s t : State) (i : Instr), exec i s = .next t →
    ∃ events, t.trace = s.trace ++ events ∧
      ((∃ c, i = .cruRead c) ∨ (∃ c v, i = .cruWrite c v) → ∀ e ∈ events, e.isDevice = false) ∧
      (¬ ((∃ c, i = .cruRead c) ∨ (∃ c v, i = .cruWrite c v)) →
        (∀ e ∈ events, e.isCru = false) ∧ t.cruAnswers = s.cruAnswers)

/-! ## `RESET` -/

/-- R100, R102, R103, R105, R108, R202. A reset with well-formed operands of which at most ten candidates are mountable
completes: slot `i` holds the descriptor of the `i`-th mountable candidate in list order, the others are empty, `devindex`
counts them, `use_fast_path` is the flag, each candidate with a missing device is logged, and `icount`, the devices, the
trace and everything outside stay. (`latch`, the caches and `fast_ram` are unspecified, R31: nothing is said.) -/
def Obligations.ResetMountsCandidatesInOrder : Prop :=
  ∀ s : State, sidebandWellFormed s.params s.sideband = true → (mountable s.params s.sideband).length ≤ 10 →
    ∃ t, exec .reset s = .next t ∧
      (∀ i, i < 10 → t.slot i = ((mountable s.params s.sideband)[i]?).map fun m => descriptorOf m.1 m.2) ∧
      t.devindex = (mountable s.params s.sideband).length ∧
      t.useFastPath = s.sideband.fastFlag ∧ t.phase = .run ∧ t.response = .nothing ∧
      t.log = s.log ++
        (s.sideband.candidates.filter fun c => (lookupName s.sideband.machineDevices c.deviceName).isNone).map
          (fun c => ⟨.cfgDeviceNotFound, c.deviceName⟩) ∧
      t.icount = s.icount ∧ t.devices = s.devices ∧ t.trace = s.trace ∧ t.sideband = s.sideband ∧
      t.cruAnswers = s.cruAnswers ∧ t.requests = s.requests ∧ t.params = s.params

/-- R106 (`refuse`), R171, R178. When more than ten candidates are mountable the reset fails: the name of the first that
does not fit is delivered, the block is in the never-reset condition, and `icount`, the devices and the trace stay. (That
the failed reset is a next state with the failure and its name in `response` is the model's reading, log 10, DEDUCED.) -/
def Obligations.OverflowFailsTheReset : Prop :=
  ∀ s : State, sidebandWellFormed s.params s.sideband = true → s.params.overflowPolicy = .refuse →
    10 < (mountable s.params s.sideband).length →
    ∃ (t : State) (m : Nat × Candidate), (mountable s.params s.sideband)[10]? = some m ∧ exec .reset s = .next t ∧
      t.phase = .neverReset ∧ t.response = .registryOverflow m.2.deviceName ∧
      t.icount = s.icount ∧ t.devices = s.devices ∧ t.trace = s.trace ∧ t.sideband = s.sideband ∧
      t.cruAnswers = s.cruAnswers ∧ t.requests = s.requests ∧ t.params = s.params

/-- R106 (`drop`), R103. With the reference's policy the first ten mountable candidates stay mounted, every later one is
logged as `REGISTRY_OVERFLOW` and each with a missing device as `CFG_DEVICE_NOT_FOUND`, in list order, and the reset
completes. The overflow lines name exactly the mountable candidates after the tenth. -/
def Obligations.OverflowDropsTheRest : Prop :=
  ∀ s : State, sidebandWellFormed s.params s.sideband = true → s.params.overflowPolicy = .drop →
    10 < (mountable s.params s.sideband).length →
    ∃ t, exec .reset s = .next t ∧ t.phase = .run ∧ t.devindex = 10 ∧ t.useFastPath = s.sideband.fastFlag ∧
      (∀ i, i < 10 → t.slot i = ((mountable s.params s.sideband)[i]?).map fun m => descriptorOf m.1 m.2) ∧
      t.response = .nothing ∧
      t.log = s.log ++ dropLines s.params s.sideband ∧
      (dropLines s.params s.sideband).filter (fun l => l.code == .registryOverflow) =
        ((mountable s.params s.sideband).drop 10).map (fun m => ⟨.registryOverflow, m.2.deviceName⟩) ∧
      t.icount = s.icount ∧ t.devices = s.devices ∧ t.trace = s.trace ∧
      t.sideband = s.sideband ∧ t.cruAnswers = s.cruAnswers ∧ t.requests = s.requests ∧ t.params = s.params

/-- R107. A reset is refused when a candidate has both handlers null, or has a nonzero mask and names a setting the
configuration does not define. -/
def Obligations.IllFormedResetIsRefused : Prop :=
  ∀ (s : State) (c : Candidate), c ∈ s.sideband.candidates →
    (c.readFn = none ∧ c.writeFn = none) ∨
      (unconditional s.params c = false ∧ lookupName s.sideband.runtimeConfig c.settingName = none) →
    exec .reset s = .refused .illFormedReset

/-- R104. The presence condition: both masks zero, always present and the setting not consulted; otherwise exactly when
every required bit is set in the setting's value and no forbidden bit is; a bit in both masks, never. -/
def Obligations.PresenceCondition : Prop :=
  ∀ (p : Params) (config : List (Nat × Nat)) (c : Candidate),
    (cfgBits p c.requiredBits = 0#p.cfgW → cfgBits p c.forbiddenBits = 0#p.cfgW → present p config c = true) ∧
    (∀ v, lookupName config c.settingName = some v →
      (present p config c = true ↔
        ∀ i, i < p.cfgW → ((cfgBits p c.requiredBits).getLsbD i = true → v.testBit i = true) ∧
          ((cfgBits p c.forbiddenBits).getLsbD i = true → v.testBit i = false))) ∧
    (∀ i, (cfgBits p c.requiredBits).getLsbD i = true → (cfgBits p c.forbiddenBits).getLsbD i = true →
      present p config c = false)

/-- R102 (the source's P7). What a reset leaves in the registry, in `devindex` and in `use_fast_path` is decided by its
operands: no descriptor of an earlier mount remains, whatever the state before. -/
def Obligations.RemountForgetsTheOldRegistry : Prop :=
  ∀ s t u : State, exec .reset s = .next t → t.phase = .run → u.params = s.params → u.sideband = s.sideband →
    ∃ t', exec .reset u = .next t' ∧ t'.phase = .run ∧ t'.registry = t.registry ∧ t'.devindex = t.devindex ∧
      t'.useFastPath = t.useFastPath

/-- R180, R171. The run phase is left only by a reset that overflows under `refuse`: no access leaves it. -/
def Obligations.OnlyOverflowLeavesTheRunPhase : Prop :=
  ∀ (s t : State) (i : Instr), exec i s = .next t → s.phase = .run → t.phase = .neverReset →
    i = .reset ∧ s.params.overflowPolicy = .refuse ∧ 10 < (mountable s.params s.sideband).length

/-! ## Refusals and completion -/

/-- R175, R173. An operation has a step exactly when it is admitted: its address is even where it is a word access, it comes
in the run phase unless it is a reset, and a reset's operands are well-formed. No access ends in anything else. -/
def Obligations.AdmittedOperationsComplete : Prop :=
  ∀ (s : State) (i : Instr), (∃ t, exec i s = .next t) ↔ admitted i s

/-- R32, conflict C10. In the never-reset condition every access is refused. -/
def Obligations.NoAccessBeforeReset : Prop :=
  ∀ (s : State) (i : Instr), s.phase = .neverReset → i.wellFormed = true → i ≠ .reset → exec i s = .refused .notReset

/-- R44, R121. A word access at an odd address is refused, in any state. (That the refusal is named `oddAddress` in the
never-reset condition too is the model's order of checks, log 11, DEDUCED and DESIGN CHOICE.) -/
def Obligations.OddAddressIsRefused : Prop :=
  ∀ (s : State) (a : Addr) (v : Word) (mask : ByteMask), isEven a = false →
    exec (.read16 a) s = .refused .oddAddress ∧ exec (write16Form mask a v) s = .refused .oddAddress

/-! ## Encoding -/

/-- R79. Decoding the canonical word of a well-formed instruction gives it back, whatever its operands. -/
def Obligations.DecodeOfEncode : Prop := ∀ i : Instr, i.wellFormed = true → decode (encode i) = .ok i

/-- R79. A word decodes exactly when it is not reserved: `kind` at most 100; not `WRITE16` with `be = 00`; not `READ16` or
`WRITE16` with bit 16 set. -/
def Obligations.ReservedWordsAreExactlyRefused : Prop :=
  ∀ w : BusReq, (∃ i, decode w = .ok i) ↔
    ¬ (4 < (kindField w).toNat ∨ (kindField w = 1#3 ∧ beField w = 0#2) ∨
        ((kindField w).toNat ≤ 1 ∧ w.getLsbD 16 = true))

/-- The opcode table's `match` and `mask` columns, R79. A word that decodes stands in its instruction's row, and the
instruction is well-formed. -/
def Obligations.DecodedWordsStandInTheirRow : Prop :=
  ∀ (w : BusReq) (i : Instr), decode w = .ok i → i.wellFormed = true ∧ w &&& rowMask i = rowMatch i

/-- R80. The ignored fields have no effect: `READ16` and `CRU_READ` look at `kind` and `addr` only, `CRU_WRITE` not at `be`,
`RESET` at `kind` only. -/
def Obligations.IgnoredFieldsHaveNoEffect : Prop :=
  ∀ w w' : BusReq, kindField w = kindField w' →
    (kindField w = 0#3 → addrField w = addrField w' → decode w = decode w') ∧
    (kindField w = 2#3 → addrField w = addrField w' → decode w = decode w') ∧
    (kindField w = 3#3 → addrField w = addrField w' → dataField w = dataField w' → decode w = decode w') ∧
    (kindField w = 4#3 → decode w = decode w')

/-- Words of 95_test_vectors.md, one per row of the opcode table and the reserved ones (R79). -/
def Obligations.SampleWordsDecode : Prop :=
  decode 0x0390000000#37 = .ok (.read16 0x9000#16) ∧
  decode 0x0090000000#37 = .ok (.read16 0x9000#16) ∧
  decode 0x078000BEEF#37 = .ok (.write16Word 0x8000#16 0xBEEF#16) ∧
  decode 0x0680005600#37 = .ok (.write16HighByteOnly 0x8000#16 0x5600#16) ∧
  decode 0x0580000078#37 = .ok (.write16LowByteOnly 0x8000#16 0x0078#16) ∧
  decode 0x0B00030000#37 = .ok (.cruRead 0x0003#16) ∧
  decode 0x0F00030001#37 = .ok (.cruWrite 0x0003#16 0x0001#16) ∧
  decode 0x1300000000#37 = .ok .reset ∧
  decode 0x1400000000#37 = .error .reservedKind ∧
  decode 0x1C00000000#37 = .error .reservedKind ∧
  decode 0x0480001234#37 = .error .noByteEnabled ∧
  decode 0x0390010000#37 = .error .oddAddress ∧
  decode 0x0780011234#37 = .error .oddAddress

/-! ## The step -/

/-- R53, R71, R79. When the CPU side's next request decodes, a step takes it off the queue, lets in what changed outside
with it, and is `exec` of the instruction; a reserved word is refused by its name. (The queue and what comes with a request
are the model's, log 3 and log 8.) -/
def Obligations.StepRunsTheDecodedRequest : Prop :=
  ∀ (s : State) (r : Request) (rest : List Request), s.requests = r :: rest →
    (∀ i, decode r.word = .ok i → step s = exec i { s with
      requests := rest
      sideband := r.outside.sideband.getD s.sideband
      icount := r.outside.icount.getD s.icount
      cruAnswers := r.outside.cruAnswers.getD s.cruAnswers }) ∧
    (decode r.word = .error .reservedKind → step s = .refused .reservedKind) ∧
    (decode r.word = .error .noByteEnabled → step s = .refused .noByteEnabled) ∧
    (decode r.word = .error .oddAddress → step s = .refused .oddAddress)

/-- R201. With no request presented the block does nothing. -/
def Obligations.IdleBlockDoesNothing : Prop := ∀ s : State, s.requests = [] → step s = .next s

/-! ## Invariants and whole-machine rules -/

/-- R17, R22, R31. Every step keeps the invariant: canonical memories within their sizes, the registry filled without gaps
while accesses are admitted, each mounted slot with a handler. -/
def Obligations.StepKeepsTheInvariant : Prop := ∀ s t : State, s.Inv → step s = .next t → t.Inv

/-- The state after reset meets the invariant. (It rests on the model's empty candidate list, log 2.) -/
def Obligations.ResetMeetsTheInvariant : Prop := State.reset.Inv

/-- R202, R111. The state after reset is what a reset with an empty candidate list and the flag off gives: every slot empty,
`devindex` 0, the bypass off, accesses admitted. (The empty list and the flag are the model's choice of operands, log 2.) -/
def Obligations.ResetStateIsAnEmptyMount : Prop :=
  (∀ i, i < 10 → State.reset.slot i = none) ∧ State.reset.devindex = 0 ∧ State.reset.useFastPath = false ∧
    State.reset.phase = .run ∧
    ∀ s : State, s.sideband.candidates = [] → s.sideband.fastFlag = false →
      ∃ t, exec .reset s = .next t ∧ t.registry = State.reset.registry ∧ t.devindex = State.reset.devindex ∧
        t.useFastPath = State.reset.useFastPath ∧ t.phase = State.reset.phase

/-- R23, R180, R16, R24. Over all operations but `reset`: the registry, `devindex`, `use_fast_path` and the phase never
change, nor do the configuration surface, the requests, the log and the parameters. -/
def Obligations.OnlyResetWritesTheRegistry : Prop :=
  ∀ (s t : State) (i : Instr), i ≠ .reset → exec i s = .next t →
    t = { s with latch := t.latch, lowByteCache := t.lowByteCache, highByteCache := t.highByteCache, fastRam := t.fastRam,
                 icount := t.icount, devices := t.devices, cruAnswers := t.cruAnswers, trace := t.trace,
                 response := t.response, draws := t.draws }

/-- R13, R14, R15, R58. Over all operations: only `read16` and `reset` change `latch` or a cache. -/
def Obligations.OnlyReadsWriteLatchAndCaches : Prop :=
  ∀ (s t : State) (i : Instr), exec i s = .next t →
    (∃ a, i = .read16 a) ∨ i = .reset ∨
      (t.latch = s.latch ∧ t.lowByteCache = s.lowByteCache ∧ t.highByteCache = s.highByteCache)

/-- R17. Over all operations but `reset`: a byte of `fast_ram` changes only by a write whose address is in a window, with
the bypass on, and only in the word of that address. -/
def Obligations.OnlyBypassWritesChangeTheBuffer : Prop :=
  ∀ (s t : State) (i : Instr) (k : Nat), exec i s = .next t → i ≠ .reset → t.fastByte k ≠ s.fastByte k →
    ∃ mask a v, i = write16Form mask a v ∧ s.useFastPath = true ∧ inFastWindow a = true ∧ k / 2 = fastIndex a

/-- R184. A device whose handle no slot answering one of the operation's two addresses holds is untouched. -/
def Obligations.OtherDevicesAreUntouched : Prop :=
  ∀ (s t : State) (a : Addr) (d : Nat),
    (exec (.read16 a) s = .next t → (∀ i h f, i ∈ s.readSlots (oddAddress a) ++ s.readSlots a →
        s.reader i = some (h, f) → h ≠ d) → t.deviceAt d = s.deviceAt d) ∧
    (∀ mask v, exec (write16Form mask a v) s = .next t → (∀ i h f, i ∈ s.writeSlots (oddAddress a) ++ s.writeSlots a →
        s.writer i = some (h, f) → h ≠ d) → t.deviceAt d = s.deviceAt d)

/-- R49, R209. With the bypass on, an access in a window calls no device, charges nothing and is the same whatever the
registry holds. -/
def Obligations.WindowsShadowTheRegistry : Prop :=
  ∀ (s u t : State) (i : Instr) (a : Addr), (i = .read16 a ∨ ∃ mask v, i = write16Form mask a v) → s.bypass a = true →
    exec i s = .next t →
    t.devices = s.devices ∧ t.icount = s.icount ∧
      exec i { s with registry := u.registry, devindex := u.devindex } =
        .next { t with registry := u.registry, devindex := u.devindex }

/-- R24, R26. Over all operations: what leaves `icount` is exactly the cycles of the `Wait` events appended. -/
def Obligations.IcountFallsByTheWaits : Prop :=
  ∀ (s t : State) (i : Instr), exec i s = .next t →
    ∃ events, t.trace = s.trace ++ events ∧ t.icount = s.icount - cyclesOf events

/-- R181, R132, R148, R212. After any run of operations of which `n` were word accesses on the dispatch path, `icount` has
dropped by exactly `6 n`. -/
def Obligations.RunsChargeSixPerDispatchedAccess : Prop :=
  ∀ (is : List Instr) (s t : State) (n : Nat), runAll is s 0 = .next (t, n) → t.icount = s.icount - 6 * (n : Int)

/-! ## The address map and the registry -/

/-- R47. `InFastWindow` is true exactly in the two ranges, and the mask form agrees with it on every address. -/
def Obligations.WindowRangesAndMasks : Prop :=
  ∀ a : Addr,
    (inFastWindow a = true ↔
      (0x2000 ≤ a.toNat ∧ a.toNat ≤ 0x3FFF) ∨ (0xA000 ≤ a.toNat ∧ a.toNat ≤ 0xFFFF)) ∧
    (inFastWindow a = true ↔
      (a &&& 0xE000#16 = 0x2000#16 ∨ a &&& 0xE000#16 = 0xA000#16 ∨ a &&& 0xC000#16 = 0xC000#16))

/-- R48. `FastIndex` has the two formulas of the rule, and maps the even window addresses one-to-one onto the 0x4000 words. -/
def Obligations.FastIndexIsABijection : Prop :=
  (∀ a : Addr, 0x2000 ≤ a.toNat → a.toNat ≤ 0x3FFF → fastIndex a = (a.toNat - 0x2000) / 2) ∧
  (∀ a : Addr, 0xA000 ≤ a.toNat → fastIndex a = (a.toNat - 0xA000) / 2 + 0x1000) ∧
  (∀ a b : Addr, isEven a = true → isEven b = true → inFastWindow a = true → inFastWindow b = true →
    fastIndex a = fastIndex b → a = b) ∧
  (∀ a : Addr, inFastWindow a = true → fastIndex a < 0x4000) ∧
  ∀ k, k < 0x4000 → ∃ a : Addr, isEven a = true ∧ inFastWindow a = true ∧ fastIndex a = k

/-- R20, R21. A null handler never answers. A select pattern with a bit outside the mask matches no read address, a combined pattern with one no write address;
mask and pattern zero match every read address; with no write-select bits a slot with both handlers accepts writes at
exactly its read addresses. -/
def Obligations.PatternsAndMasks : Prop :=
  ∀ (d : Descriptor) (a : Addr),
    (d.readFn = none → readMatches (some d) a = false) ∧
    (d.writeFn = none → writeMatches (some d) a = false) ∧
    (d.selectPattern &&& ~~~d.addressMask ≠ 0#16 → readMatches (some d) a = false) ∧
    ((d.selectPattern ||| d.writeSelectPattern) &&& ~~~d.addressMask ≠ 0#16 → writeMatches (some d) a = false) ∧
    (d.addressMask = 0#16 → d.selectPattern = 0#16 → d.readFn ≠ none → readMatches (some d) a = true) ∧
    (d.writeSelectPattern = 0#16 → d.readFn ≠ none → d.writeFn ≠ none → writeMatches (some d) a = readMatches (some d) a)

/-- R151. A slot with a write-select bit outside its select pattern never accepts a write at an address where it answers
reads. -/
def Obligations.WriteSelectSplitsReadsAndWrites : Prop :=
  ∀ (d : Descriptor) (a : Addr), d.selectPattern ||| d.writeSelectPattern ≠ d.selectPattern →
    readMatches (some d) a = true → writeMatches (some d) a = false

/-- R23 (the source's P1). Two readable slots answer no common address exactly when their patterns differ in a bit of both
masks or one of them has a pattern bit outside its own mask. -/
def Obligations.ReadOverlapCriterion : Prop :=
  ∀ d e : Descriptor, d.readFn ≠ none → e.readFn ≠ none →
    ((∀ a : Addr, ¬ (readMatches (some d) a = true ∧ readMatches (some e) a = true)) ↔
      (d.selectPattern ^^^ e.selectPattern) &&& (d.addressMask &&& e.addressMask) ≠ 0#16 ∨
        d.selectPattern &&& ~~~d.addressMask ≠ 0#16 ∨ e.selectPattern &&& ~~~e.addressMask ≠ 0#16)

/-- R23. Under `Disjoint` no operation makes more than two device calls, and no more than one at any one address. -/
def Obligations.DisjointRegistriesCallOneDevicePerByte : Prop :=
  ∀ (s t : State) (i : Instr), s.Disjoint → exec i s = .next t →
    ∃ events, t.trace = s.trace ++ events ∧ (events.filter Event.isDevice).length ≤ 2 ∧
      ∀ b : Addr, (events.filter fun e => e.deviceAddress == some b).length ≤ 1

/-- R27, R126, R130. Handlers that return `prior`, of whatever devices and for each `OPEN_BUS_HIGH`. Where every handler that
answers the odd address returns `prior`, the low byte is the old `latch`, and where every handler that answers the even
address does, the high byte is `OpenBusHigh()`: the read gives what an unanswered read would. Where the last slot that
answers a byte returns `prior`, the byte the slots before it left stands. The last clause rests on the stub table of
95_test_vectors.md (log 7): a KEEP stub leaves its device as it was. -/
def Obligations.KeepingHandlerLetsTheOldByteStand : Prop :=
  ∀ (s : State) (a : Addr), isEven a = true → s.phase = .run → s.bypass a = false →
    ∃ (t : State) (start : Byte) (n : Nat),
      exec (.read16 a) s = .next t ∧
      let low := readCalls s.reader (oddAddress a) (s.readSlots (oddAddress a)) s.latch s.deviceAt s.draws
      (s.params.openBusHigh = .cache → start = s.highByteCache ∧ n = low.draws) ∧
      (s.params.openBusHigh = .zero → start = 0#8 ∧ n = low.draws) ∧
      t.response = .word (ofBytes t.highByteCache t.latch) ∧
      (s.allReturnPrior (s.readSlots (oddAddress a)) → t.latch = s.latch) ∧
      (s.allReturnPrior (s.readSlots a) → t.highByteCache = start) ∧
      (∀ is i h f, s.readSlots (oddAddress a) = is ++ [i] → s.reader i = some (h, f) → returnsPrior f →
        t.latch = lastByte s.latch (readCalls s.reader (oddAddress a) is s.latch s.deviceAt s.draws).bytes) ∧
      (∀ is i h f, s.readSlots a = is ++ [i] → s.reader i = some (h, f) → returnsPrior f →
        t.highByteCache = lastByte start (readCalls s.reader a is start low.devices n).bytes) ∧
      returnsPrior .keep ∧
      ((∀ i h f, i ∈ s.readSlots (oddAddress a) ++ s.readSlots a → s.reader i = some (h, f) → f = .keep) →
        ∀ d, t.deviceAt d = s.deviceAt d)
end

