-- ==== Sys2Proof/Laws/State.lean ====
section
/-! SUPPORT. One lemma per field of the state and per update of it, all by unfolding the update once. -/

namespace Sys2Proof.Machine

/-! `State.record` -/

@[simp] theorem State.record_registry (s : State) (e : Event) : (s.record e).registry = s.registry := rfl
@[simp] theorem State.record_devindex (s : State) (e : Event) : (s.record e).devindex = s.devindex := rfl
@[simp] theorem State.record_latch (s : State) (e : Event) : (s.record e).latch = s.latch := rfl
@[simp] theorem State.record_lowByteCache (s : State) (e : Event) : (s.record e).lowByteCache = s.lowByteCache := rfl
@[simp] theorem State.record_highByteCache (s : State) (e : Event) : (s.record e).highByteCache = s.highByteCache := rfl
@[simp] theorem State.record_useFastPath (s : State) (e : Event) : (s.record e).useFastPath = s.useFastPath := rfl
@[simp] theorem State.record_fastRam (s : State) (e : Event) : (s.record e).fastRam = s.fastRam := rfl
@[simp] theorem State.record_phase (s : State) (e : Event) : (s.record e).phase = s.phase := rfl
@[simp] theorem State.record_icount (s : State) (e : Event) : (s.record e).icount = s.icount := rfl
@[simp] theorem State.record_devices (s : State) (e : Event) : (s.record e).devices = s.devices := rfl
@[simp] theorem State.record_sideband (s : State) (e : Event) : (s.record e).sideband = s.sideband := rfl
@[simp] theorem State.record_cruAnswers (s : State) (e : Event) : (s.record e).cruAnswers = s.cruAnswers := rfl
@[simp] theorem State.record_requests (s : State) (e : Event) : (s.record e).requests = s.requests := rfl
@[simp] theorem State.record_trace (s : State) (e : Event) : (s.record e).trace = s.trace ++ [e] := rfl
@[simp] theorem State.record_response (s : State) (e : Event) : (s.record e).response = s.response := rfl
@[simp] theorem State.record_log (s : State) (e : Event) : (s.record e).log = s.log := rfl
@[simp] theorem State.record_params (s : State) (e : Event) : (s.record e).params = s.params := rfl
@[simp] theorem State.record_ramEpoch (s : State) (e : Event) : (s.record e).ramEpoch = s.ramEpoch := rfl
@[simp] theorem State.record_draws (s : State) (e : Event) : (s.record e).draws = s.draws := rfl

/-! `State.consume` -/

@[simp] theorem State.consume_registry (s : State) (n : Nat) : (s.consume n).registry = s.registry := rfl
@[simp] theorem State.consume_devindex (s : State) (n : Nat) : (s.consume n).devindex = s.devindex := rfl
@[simp] theorem State.consume_latch (s : State) (n : Nat) : (s.consume n).latch = s.latch := rfl
@[simp] theorem State.consume_lowByteCache (s : State) (n : Nat) : (s.consume n).lowByteCache = s.lowByteCache := rfl
@[simp] theorem State.consume_highByteCache (s : State) (n : Nat) : (s.consume n).highByteCache = s.highByteCache := rfl
@[simp] theorem State.consume_useFastPath (s : State) (n : Nat) : (s.consume n).useFastPath = s.useFastPath := rfl
@[simp] theorem State.consume_fastRam (s : State) (n : Nat) : (s.consume n).fastRam = s.fastRam := rfl
@[simp] theorem State.consume_phase (s : State) (n : Nat) : (s.consume n).phase = s.phase := rfl
@[simp] theorem State.consume_icount (s : State) (n : Nat) : (s.consume n).icount = s.icount - (n : Int) := rfl
@[simp] theorem State.consume_devices (s : State) (n : Nat) : (s.consume n).devices = s.devices := rfl
@[simp] theorem State.consume_sideband (s : State) (n : Nat) : (s.consume n).sideband = s.sideband := rfl
@[simp] theorem State.consume_cruAnswers (s : State) (n : Nat) : (s.consume n).cruAnswers = s.cruAnswers := rfl
@[simp] theorem State.consume_requests (s : State) (n : Nat) : (s.consume n).requests = s.requests := rfl
@[simp] theorem State.consume_trace (s : State) (n : Nat) : (s.consume n).trace = s.trace ++ [.wait n] := rfl
@[simp] theorem State.consume_response (s : State) (n : Nat) : (s.consume n).response = s.response := rfl
@[simp] theorem State.consume_log (s : State) (n : Nat) : (s.consume n).log = s.log := rfl
@[simp] theorem State.consume_params (s : State) (n : Nat) : (s.consume n).params = s.params := rfl
@[simp] theorem State.consume_ramEpoch (s : State) (n : Nat) : (s.consume n).ramEpoch = s.ramEpoch := rfl
@[simp] theorem State.consume_draws (s : State) (n : Nat) : (s.consume n).draws = s.draws := rfl

/-! `State.respond` -/

@[simp] theorem State.respond_registry (s : State) (r : Response) : (s.respond r).registry = s.registry := rfl
@[simp] theorem State.respond_devindex (s : State) (r : Response) : (s.respond r).devindex = s.devindex := rfl
@[simp] theorem State.respond_latch (s : State) (r : Response) : (s.respond r).latch = s.latch := rfl
@[simp] theorem State.respond_lowByteCache (s : State) (r : Response) : (s.respond r).lowByteCache = s.lowByteCache := rfl
@[simp] theorem State.respond_highByteCache (s : State) (r : Response) : (s.respond r).highByteCache = s.highByteCache := rfl
@[simp] theorem State.respond_useFastPath (s : State) (r : Response) : (s.respond r).useFastPath = s.useFastPath := rfl
@[simp] theorem State.respond_fastRam (s : State) (r : Response) : (s.respond r).fastRam = s.fastRam := rfl
@[simp] theorem State.respond_phase (s : State) (r : Response) : (s.respond r).phase = s.phase := rfl
@[simp] theorem State.respond_icount (s : State) (r : Response) : (s.respond r).icount = s.icount := rfl
@[simp] theorem State.respond_devices (s : State) (r : Response) : (s.respond r).devices = s.devices := rfl
@[simp] theorem State.respond_sideband (s : State) (r : Response) : (s.respond r).sideband = s.sideband := rfl
@[simp] theorem State.respond_cruAnswers (s : State) (r : Response) : (s.respond r).cruAnswers = s.cruAnswers := rfl
@[simp] theorem State.respond_requests (s : State) (r : Response) : (s.respond r).requests = s.requests := rfl
@[simp] theorem State.respond_trace (s : State) (r : Response) : (s.respond r).trace = s.trace := rfl
@[simp] theorem State.respond_response (s : State) (r : Response) : (s.respond r).response = r := rfl
@[simp] theorem State.respond_log (s : State) (r : Response) : (s.respond r).log = s.log := rfl
@[simp] theorem State.respond_params (s : State) (r : Response) : (s.respond r).params = s.params := rfl
@[simp] theorem State.respond_ramEpoch (s : State) (r : Response) : (s.respond r).ramEpoch = s.ramEpoch := rfl
@[simp] theorem State.respond_draws (s : State) (r : Response) : (s.respond r).draws = s.draws := rfl

/-! `State.setLatch` -/

@[simp] theorem State.setLatch_registry (s : State) (v : Byte) : (s.setLatch v).registry = s.registry := rfl
@[simp] theorem State.setLatch_devindex (s : State) (v : Byte) : (s.setLatch v).devindex = s.devindex := rfl
@[simp] theorem State.setLatch_latch (s : State) (v : Byte) : (s.setLatch v).latch = v := rfl
@[simp] theorem State.setLatch_lowByteCache (s : State) (v : Byte) : (s.setLatch v).lowByteCache = s.lowByteCache := rfl
@[simp] theorem State.setLatch_highByteCache (s : State) (v : Byte) : (s.setLatch v).highByteCache = s.highByteCache := rfl
@[simp] theorem State.setLatch_useFastPath (s : State) (v : Byte) : (s.setLatch v).useFastPath = s.useFastPath := rfl
@[simp] theorem State.setLatch_fastRam (s : State) (v : Byte) : (s.setLatch v).fastRam = s.fastRam := rfl
@[simp] theorem State.setLatch_phase (s : State) (v : Byte) : (s.setLatch v).phase = s.phase := rfl
@[simp] theorem State.setLatch_icount (s : State) (v : Byte) : (s.setLatch v).icount = s.icount := rfl
@[simp] theorem State.setLatch_devices (s : State) (v : Byte) : (s.setLatch v).devices = s.devices := rfl
@[simp] theorem State.setLatch_sideband (s : State) (v : Byte) : (s.setLatch v).sideband = s.sideband := rfl
@[simp] theorem State.setLatch_cruAnswers (s : State) (v : Byte) : (s.setLatch v).cruAnswers = s.cruAnswers := rfl
@[simp] theorem State.setLatch_requests (s : State) (v : Byte) : (s.setLatch v).requests = s.requests := rfl
@[simp] theorem State.setLatch_trace (s : State) (v : Byte) : (s.setLatch v).trace = s.trace := rfl
@[simp] theorem State.setLatch_response (s : State) (v : Byte) : (s.setLatch v).response = s.response := rfl
@[simp] theorem State.setLatch_log (s : State) (v : Byte) : (s.setLatch v).log = s.log := rfl
@[simp] theorem State.setLatch_params (s : State) (v : Byte) : (s.setLatch v).params = s.params := rfl
@[simp] theorem State.setLatch_ramEpoch (s : State) (v : Byte) : (s.setLatch v).ramEpoch = s.ramEpoch := rfl
@[simp] theorem State.setLatch_draws (s : State) (v : Byte) : (s.setLatch v).draws = s.draws := rfl

/-! `State.setCaches` -/

@[simp] theorem State.setCaches_registry (s : State) (low high : Byte) : (s.setCaches low high).registry = s.registry := rfl
@[simp] theorem State.setCaches_devindex (s : State) (low high : Byte) : (s.setCaches low high).devindex = s.devindex := rfl
@[simp] theorem State.setCaches_latch (s : State) (low high : Byte) : (s.setCaches low high).latch = s.latch := rfl
@[simp] theorem State.setCaches_lowByteCache (s : State) (low high : Byte) : (s.setCaches low high).lowByteCache = low := rfl
@[simp] theorem State.setCaches_highByteCache (s : State) (low high : Byte) : (s.setCaches low high).highByteCache = high := rfl
@[simp] theorem State.setCaches_useFastPath (s : State) (low high : Byte) : (s.setCaches low high).useFastPath = s.useFastPath := rfl
@[simp] theorem State.setCaches_fastRam (s : State) (low high : Byte) : (s.setCaches low high).fastRam = s.fastRam := rfl
@[simp] theorem State.setCaches_phase (s : State) (low high : Byte) : (s.setCaches low high).phase = s.phase := rfl
@[simp] theorem State.setCaches_icount (s : State) (low high : Byte) : (s.setCaches low high).icount = s.icount := rfl
@[simp] theorem State.setCaches_devices (s : State) (low high : Byte) : (s.setCaches low high).devices = s.devices := rfl
@[simp] theorem State.setCaches_sideband (s : State) (low high : Byte) : (s.setCaches low high).sideband = s.sideband := rfl
@[simp] theorem State.setCaches_cruAnswers (s : State) (low high : Byte) : (s.setCaches low high).cruAnswers = s.cruAnswers := rfl
@[simp] theorem State.setCaches_requests (s : State) (low high : Byte) : (s.setCaches low high).requests = s.requests := rfl
@[simp] theorem State.setCaches_trace (s : State) (low high : Byte) : (s.setCaches low high).trace = s.trace := rfl
@[simp] theorem State.setCaches_response (s : State) (low high : Byte) : (s.setCaches low high).response = s.response := rfl
@[simp] theorem State.setCaches_log (s : State) (low high : Byte) : (s.setCaches low high).log = s.log := rfl
@[simp] theorem State.setCaches_params (s : State) (low high : Byte) : (s.setCaches low high).params = s.params := rfl
@[simp] theorem State.setCaches_ramEpoch (s : State) (low high : Byte) : (s.setCaches low high).ramEpoch = s.ramEpoch := rfl
@[simp] theorem State.setCaches_draws (s : State) (low high : Byte) : (s.setCaches low high).draws = s.draws := rfl

/-! `State.setDevice` -/

@[simp] theorem State.setDevice_registry (s : State) (h : Nat) (d : DeviceState) : (s.setDevice h d).registry = s.registry := rfl
@[simp] theorem State.setDevice_devindex (s : State) (h : Nat) (d : DeviceState) : (s.setDevice h d).devindex = s.devindex := rfl
@[simp] theorem State.setDevice_latch (s : State) (h : Nat) (d : DeviceState) : (s.setDevice h d).latch = s.latch := rfl
@[simp] theorem State.setDevice_lowByteCache (s : State) (h : Nat) (d : DeviceState) : (s.setDevice h d).lowByteCache = s.lowByteCache := rfl
@[simp] theorem State.setDevice_highByteCache (s : State) (h : Nat) (d : DeviceState) : (s.setDevice h d).highByteCache = s.highByteCache := rfl
@[simp] theorem State.setDevice_useFastPath (s : State) (h : Nat) (d : DeviceState) : (s.setDevice h d).useFastPath = s.useFastPath := rfl
@[simp] theorem State.setDevice_fastRam (s : State) (h : Nat) (d : DeviceState) : (s.setDevice h d).fastRam = s.fastRam := rfl
@[simp] theorem State.setDevice_phase (s : State) (h : Nat) (d : DeviceState) : (s.setDevice h d).phase = s.phase := rfl
@[simp] theorem State.setDevice_icount (s : State) (h : Nat) (d : DeviceState) : (s.setDevice h d).icount = s.icount := rfl
@[simp] theorem State.setDevice_devices (s : State) (h : Nat) (d : DeviceState) : (s.setDevice h d).devices = put s.devices h d := rfl
@[simp] theorem State.setDevice_sideband (s : State) (h : Nat) (d : DeviceState) : (s.setDevice h d).sideband = s.sideband := rfl
@[simp] theorem State.setDevice_cruAnswers (s : State) (h : Nat) (d : DeviceState) : (s.setDevice h d).cruAnswers = s.cruAnswers := rfl
@[simp] theorem State.setDevice_requests (s : State) (h : Nat) (d : DeviceState) : (s.setDevice h d).requests = s.requests := rfl
@[simp] theorem State.setDevice_trace (s : State) (h : Nat) (d : DeviceState) : (s.setDevice h d).trace = s.trace := rfl
@[simp] theorem State.setDevice_response (s : State) (h : Nat) (d : DeviceState) : (s.setDevice h d).response = s.response := rfl
@[simp] theorem State.setDevice_log (s : State) (h : Nat) (d : DeviceState) : (s.setDevice h d).log = s.log := rfl
@[simp] theorem State.setDevice_params (s : State) (h : Nat) (d : DeviceState) : (s.setDevice h d).params = s.params := rfl
@[simp] theorem State.setDevice_ramEpoch (s : State) (h : Nat) (d : DeviceState) : (s.setDevice h d).ramEpoch = s.ramEpoch := rfl
@[simp] theorem State.setDevice_draws (s : State) (h : Nat) (d : DeviceState) : (s.setDevice h d).draws = s.draws + 1 := rfl

/-! `State.setFastWord` -/

@[simp] theorem State.setFastWord_registry (s : State) (k : Nat) (w : Word) : (s.setFastWord k w).registry = s.registry := rfl
@[simp] theorem State.setFastWord_devindex (s : State) (k : Nat) (w : Word) : (s.setFastWord k w).devindex = s.devindex := rfl
@[simp] theorem State.setFastWord_latch (s : State) (k : Nat) (w : Word) : (s.setFastWord k w).latch = s.latch := rfl
@[simp] theorem State.setFastWord_lowByteCache (s : State) (k : Nat) (w : Word) : (s.setFastWord k w).lowByteCache = s.lowByteCache := rfl
@[simp] theorem State.setFastWord_highByteCache (s : State) (k : Nat) (w : Word) : (s.setFastWord k w).highByteCache = s.highByteCache := rfl
@[simp] theorem State.setFastWord_useFastPath (s : State) (k : Nat) (w : Word) : (s.setFastWord k w).useFastPath = s.useFastPath := rfl
@[simp] theorem State.setFastWord_fastRam (s : State) (k : Nat) (w : Word) : (s.setFastWord k w).fastRam = put (put s.fastRam (2 * k) (highByte w)) (2 * k + 1) (lowByte w) := rfl
@[simp] theorem State.setFastWord_phase (s : State) (k : Nat) (w : Word) : (s.setFastWord k w).phase = s.phase := rfl
@[simp] theorem State.setFastWord_icount (s : State) (k : Nat) (w : Word) : (s.setFastWord k w).icount = s.icount := rfl
@[simp] theorem State.setFastWord_devices (s : State) (k : Nat) (w : Word) : (s.setFastWord k w).devices = s.devices := rfl
@[simp] theorem State.setFastWord_sideband (s : State) (k : Nat) (w : Word) : (s.setFastWord k w).sideband = s.sideband := rfl
@[simp] theorem State.setFastWord_cruAnswers (s : State) (k : Nat) (w : Word) : (s.setFastWord k w).cruAnswers = s.cruAnswers := rfl
@[simp] theorem State.setFastWord_requests (s : State) (k : Nat) (w : Word) : (s.setFastWord k w).requests = s.requests := rfl
@[simp] theorem State.setFastWord_trace (s : State) (k : Nat) (w : Word) : (s.setFastWord k w).trace = s.trace := rfl
@[simp] theorem State.setFastWord_response (s : State) (k : Nat) (w : Word) : (s.setFastWord k w).response = s.response := rfl
@[simp] theorem State.setFastWord_log (s : State) (k : Nat) (w : Word) : (s.setFastWord k w).log = s.log := rfl
@[simp] theorem State.setFastWord_params (s : State) (k : Nat) (w : Word) : (s.setFastWord k w).params = s.params := rfl
@[simp] theorem State.setFastWord_ramEpoch (s : State) (k : Nat) (w : Word) : (s.setFastWord k w).ramEpoch = s.ramEpoch := rfl
@[simp] theorem State.setFastWord_draws (s : State) (k : Nat) (w : Word) : (s.setFastWord k w).draws = s.draws := rfl

/-! `State.arrive` -/

@[simp] theorem State.arrive_registry (s : State) (o : Outside) : (s.arrive o).registry = s.registry := rfl
@[simp] theorem State.arrive_devindex (s : State) (o : Outside) : (s.arrive o).devindex = s.devindex := rfl
@[simp] theorem State.arrive_latch (s : State) (o : Outside) : (s.arrive o).latch = s.latch := rfl
@[simp] theorem State.arrive_lowByteCache (s : State) (o : Outside) : (s.arrive o).lowByteCache = s.lowByteCache := rfl
@[simp] theorem State.arrive_highByteCache (s : State) (o : Outside) : (s.arrive o).highByteCache = s.highByteCache := rfl
@[simp] theorem State.arrive_useFastPath (s : State) (o : Outside) : (s.arrive o).useFastPath = s.useFastPath := rfl
@[simp] theorem State.arrive_fastRam (s : State) (o : Outside) : (s.arrive o).fastRam = s.fastRam := rfl
@[simp] theorem State.arrive_phase (s : State) (o : Outside) : (s.arrive o).phase = s.phase := rfl
@[simp] theorem State.arrive_icount (s : State) (o : Outside) : (s.arrive o).icount = o.icount.getD s.icount := rfl
@[simp] theorem State.arrive_devices (s : State) (o : Outside) : (s.arrive o).devices = s.devices := rfl
@[simp] theorem State.arrive_sideband (s : State) (o : Outside) : (s.arrive o).sideband = o.sideband.getD s.sideband := rfl
@[simp] theorem State.arrive_cruAnswers (s : State) (o : Outside) : (s.arrive o).cruAnswers = o.cruAnswers.getD s.cruAnswers := rfl
@[simp] theorem State.arrive_requests (s : State) (o : Outside) : (s.arrive o).requests = s.requests := rfl
@[simp] theorem State.arrive_trace (s : State) (o : Outside) : (s.arrive o).trace = s.trace := rfl
@[simp] theorem State.arrive_response (s : State) (o : Outside) : (s.arrive o).response = s.response := rfl
@[simp] theorem State.arrive_log (s : State) (o : Outside) : (s.arrive o).log = s.log := rfl
@[simp] theorem State.arrive_params (s : State) (o : Outside) : (s.arrive o).params = s.params := rfl
@[simp] theorem State.arrive_ramEpoch (s : State) (o : Outside) : (s.arrive o).ramEpoch = s.ramEpoch := rfl
@[simp] theorem State.arrive_draws (s : State) (o : Outside) : (s.arrive o).draws = s.draws := rfl

end Sys2Proof.Machine
end

