-- ==== Sys2Proof/Laws/Memory.lean ====
section
/-! SUPPORT. The tables and the bypass buffer: a read after a write, and that every write keeps the canonical form. -/

namespace Sys2Proof.Machine

variable {α : Type}

theorem listed_put_same (t : List (Nat × α)) (k : Nat) (v : α) : listed (put t k v) k = some v := by
  induction t with
  | nil => simp [put, listed]
  | cons e rest ih =>
    obtain ⟨k', v'⟩ := e
    simp only [put]
    split
    · simp [listed]
    · split
      · simp [listed]
      · rename_i h; simp [listed, Ne.symm h, ih]

theorem listed_put_other (t : List (Nat × α)) {k k' : Nat} (v : α) (h : k' ≠ k) :
    listed (put t k v) k' = listed t k' := by
  induction t with
  | nil => simp [put, listed, Ne.symm h]
  | cons e rest ih =>
    obtain ⟨j, v'⟩ := e
    simp only [put]
    split
    · simp [listed, Ne.symm h]
    · split
      · rename_i hj; subst hj; simp [listed, Ne.symm h]
      · simp only [listed, ih]

theorem listed_put (t : List (Nat × α)) (k k' : Nat) (v : α) :
    listed (put t k v) k' = if k' = k then some v else listed t k' := by
  split
  · rename_i h; subst h; exact listed_put_same t _ v
  · rename_i h; exact listed_put_other t v h

theorem risingFrom_put (t : List (Nat × α)) (k : Nat) (v : α) {lo : Nat} (hlo : lo ≤ k) (ht : risingFrom lo t = true) :
    risingFrom lo (put t k v) = true := by
  induction t generalizing lo with
  | nil => simpa [put, risingFrom] using hlo
  | cons e rest ih =>
    obtain ⟨k', v'⟩ := e
    simp only [risingFrom, Bool.and_eq_true, decide_eq_true_eq] at ht
    simp only [put]
    split
    · simp only [risingFrom, Bool.and_eq_true, decide_eq_true_eq]
      exact ⟨hlo, by omega, ht.2⟩
    · split
      · rename_i h; subst h; simp [risingFrom, ht]
      · simp only [risingFrom, Bool.and_eq_true, decide_eq_true_eq]
        exact ⟨ht.1, ih (by omega) ht.2⟩

theorem all_put (t : List (Nat × α)) (k : Nat) (v : α) (p : Nat × α → Bool) (hp : p (k, v) = true)
    (ht : t.all p = true) : (put t k v).all p = true := by
  induction t with
  | nil => simpa [put] using hp
  | cons e rest ih =>
    obtain ⟨k', v'⟩ := e
    simp only [List.all_cons, Bool.and_eq_true] at ht
    simp only [put]
    split
    · simp [hp, ht]
    · split
      · simp [hp, ht]
      · simp [ht, ih ht.2]

/-- A write below `size` keeps the canonical form. -/
theorem wf_put {size : Nat} {m : Memory} {k : Nat} (b : Byte) (hk : k < size) (h : Memory.wf size m = true) :
    Memory.wf size (put m k b) = true := by
  simp only [Memory.wf, Bool.and_eq_true] at h ⊢
  exact ⟨risingFrom_put m k b (Nat.zero_le k) h.1, all_put m k b _ (by simpa using hk) h.2⟩

theorem wf_nil (size : Nat) : Memory.wf size [] = true := rfl

/-- A canonical table lists nothing below its bound. -/
theorem listed_of_risingFrom (t : List (Nat × α)) {lo k : Nat} (ht : risingFrom lo t = true) (hk : k < lo) :
    listed t k = none := by
  induction t generalizing lo with
  | nil => rfl
  | cons e rest ih =>
    obtain ⟨k', v'⟩ := e
    simp only [risingFrom, Bool.and_eq_true, decide_eq_true_eq] at ht
    simp only [listed, if_neg (show ¬ k' = k by omega)]
    exact ih ht.2 (by omega)

/-- Equal tables are equal data: two canonical tables that list the same values are the same list. -/
theorem eq_of_listed (t u : List (Nat × α)) {lo : Nat} (ht : risingFrom lo t = true) (hu : risingFrom lo u = true)
    (h : ∀ k, listed t k = listed u k) : t = u := by
  induction t generalizing u lo with
  | nil =>
    cases u with
    | nil => rfl
    | cons e rest => have := h e.1; simp [listed] at this
  | cons e rest ih =>
    obtain ⟨k, v⟩ := e
    cases u with
    | nil => have := h k; simp [listed] at this
    | cons e' rest' =>
      obtain ⟨k', v'⟩ := e'
      simp only [risingFrom, Bool.and_eq_true, decide_eq_true_eq] at ht hu
      have hkk : k = k' := by
        rcases Nat.lt_trichotomy k k' with hlt | heq | hgt
        · have h1 := h k
          rw [listed, if_pos rfl, listed, if_neg (by omega), listed_of_risingFrom rest' hu.2 (by omega)] at h1
          cases h1
        · exact heq
        · have h1 := h k'
          rw [listed, if_neg (by omega), listed_of_risingFrom rest ht.2 (by omega), listed, if_pos rfl] at h1
          cases h1
      subst hkk
      have hv : v = v' := by have h1 := h k; simpa [listed] using h1
      subst hv
      have hrest : rest = rest' := by
        refine ih rest' ht.2 hu.2 fun j => ?_
        by_cases hj : j = k
        · subst hj
          rw [listed_of_risingFrom rest ht.2 (by omega), listed_of_risingFrom rest' hu.2 (by omega)]
        · have h1 := h j
          simpa [listed, Ne.symm hj] using h1
      rw [hrest]

/-! The bypass buffer. -/

theorem fastByte_setFastWord (s : State) (k : Nat) (w : Word) (j : Nat) :
    (s.setFastWord k w).fastByte j =
      if j = 2 * k then highByte w else if j = 2 * k + 1 then lowByte w else s.fastByte j := by
  simp only [State.fastByte, State.setFastWord_fastRam, State.setFastWord_ramEpoch, listed_put]
  by_cases h1 : j = 2 * k + 1
  · rw [if_pos h1, if_neg (by omega), if_pos h1]; rfl
  · rw [if_neg h1]
    by_cases h2 : j = 2 * k
    · simp [h2]
    · simp [h1, h2]

/-- The bits of a composed word (R43). -/
theorem getLsbD_ofBytes (h l : Byte) (i : Nat) :
    (ofBytes h l).getLsbD i = if i < 8 then l.getLsbD i else h.getLsbD (i - 8) := by
  have e : (ofBytes h l).getLsbD i = (h ++ l).getLsbD i := rfl
  rw [e, BitVec.getLsbD_append]

theorem ofBytes_split (w : Word) : ofBytes (highByte w) (lowByte w) = w := by
  apply BitVec.eq_of_getLsbD_eq
  intro i hi
  rw [getLsbD_ofBytes]
  split
  · rename_i h; simp [lowByte, h]
  · rename_i h
    simp [highByte, show i - 8 < 8 by omega, show 8 + (i - 8) = i by omega]

@[simp] theorem lowByte_ofBytes (h l : Byte) : lowByte (ofBytes h l) = l := by
  apply BitVec.eq_of_getLsbD_eq
  intro i hi
  simp [lowByte, getLsbD_ofBytes, hi]

@[simp] theorem highByte_ofBytes (h l : Byte) : highByte (ofBytes h l) = h := by
  apply BitVec.eq_of_getLsbD_eq
  intro i hi
  simp [highByte, getLsbD_ofBytes, hi]

theorem fastWord_setFastWord_same (s : State) (k : Nat) (w : Word) : (s.setFastWord k w).fastWord k = w := by
  have h1 : (s.setFastWord k w).fastByte (2 * k) = highByte w := by simp [fastByte_setFastWord]
  have h2 : (s.setFastWord k w).fastByte (2 * k + 1) = lowByte w := by simp [fastByte_setFastWord]
  rw [State.fastWord, h1, h2, ofBytes_split]

theorem fastWord_setFastWord_other (s : State) {k j : Nat} (w : Word) (h : j ≠ k) :
    (s.setFastWord k w).fastWord j = s.fastWord j := by
  simp only [State.fastWord, fastByte_setFastWord]
  rw [if_neg (by omega), if_neg (by omega), if_neg (by omega), if_neg (by omega)]

/-- A word written within the buffer keeps its canonical form (R17). -/
theorem wf_setFastWord {s : State} {k : Nat} (w : Word) (hk : k < Config.fastRamWords)
    (h : Memory.wf (2 * Config.fastRamWords) s.fastRam = true) :
    Memory.wf (2 * Config.fastRamWords) (s.setFastWord k w).fastRam = true :=
  wf_put _ (by simp only [Config.fastRamWords] at *; omega) (wf_put _ (by simp only [Config.fastRamWords] at *; omega) h)

end Sys2Proof.Machine
end

