-- ==== Sys2Proof/Laws/Ops.lean ====
section
/-! SUPPORT. One lemma per shared operation that says what it can do; later proofs cite these and do not unfold the
operations. -/

namespace Sys2Proof.Machine

/-! Device calls. -/

/-- `DevRead` on a slot with a reader: the handler's byte, its device after it, one event, one draw. -/
theorem devRead_eq {i : Nat} {s : State} {h : Nat} {f : ReadHandler} (hr : s.reader i = some (h, f)) (a : Addr) (v : Byte) :
    devRead i a v s =
      ((runRead f s.draws h (s.deviceAt h) a v).1,
        (s.setDevice h (runRead f s.draws h (s.deviceAt h) a v).2).record
          (.devRd i a (runRead f s.draws h (s.deviceAt h) a v).1)) := by
  simp only [devRead, hr]

theorem devWrite_eq {i : Nat} {s : State} {h : Nat} {f : WriteHandler} (hw : s.writer i = some (h, f)) (a : Addr)
    (b : Byte) :
    devWrite i a b s = (s.setDevice h (runWrite f s.draws h (s.deviceAt h) a b)).record (.devWr i a b) := by
  simp only [devWrite, hw]

/-- A slot that matches a read has a reader (R21). -/
theorem reader_of_readMatch {s : State} {i : Nat} {a : Addr} (h : s.readMatch i a = true) :
    ∃ hd f, s.reader i = some (hd, f) := by
  unfold State.readMatch readMatches at h
  unfold State.reader
  cases hs : s.slot i with
  | none => simp [hs] at h
  | some d =>
    simp only [hs, Bool.and_eq_true] at h
    obtain ⟨f, hf⟩ := Option.isSome_iff_exists.mp h.1
    exact ⟨d.deviceHandle, f, by simp [hf]⟩

theorem writer_of_writeMatch {s : State} {i : Nat} {a : Addr} (h : s.writeMatch i a = true) :
    ∃ hd f, s.writer i = some (hd, f) := by
  unfold State.writeMatch writeMatches at h
  unfold State.writer
  cases hs : s.slot i with
  | none => simp [hs] at h
  | some d =>
    simp only [hs, Bool.and_eq_true] at h
    obtain ⟨f, hf⟩ := Option.isSome_iff_exists.mp h.1
    exact ⟨d.deviceHandle, f, by simp [hf]⟩

/-- `t` is `s` but for the device table, the draw number and the trace. -/
structure SameBlock (s t : State) : Prop where
  registry : t.registry = s.registry
  devindex : t.devindex = s.devindex
  latch : t.latch = s.latch
  lowByteCache : t.lowByteCache = s.lowByteCache
  highByteCache : t.highByteCache = s.highByteCache
  useFastPath : t.useFastPath = s.useFastPath
  fastRam : t.fastRam = s.fastRam
  phase : t.phase = s.phase
  icount : t.icount = s.icount
  sideband : t.sideband = s.sideband
  cruAnswers : t.cruAnswers = s.cruAnswers
  requests : t.requests = s.requests
  response : t.response = s.response
  log : t.log = s.log
  params : t.params = s.params
  ramEpoch : t.ramEpoch = s.ramEpoch

theorem SameBlock.refl (s : State) : SameBlock s s := by constructor <;> rfl

theorem SameBlock.trans {s t u : State} (h1 : SameBlock s t) (h2 : SameBlock t u) : SameBlock s u where
  registry := h2.registry.trans h1.registry
  devindex := h2.devindex.trans h1.devindex
  latch := h2.latch.trans h1.latch
  lowByteCache := h2.lowByteCache.trans h1.lowByteCache
  highByteCache := h2.highByteCache.trans h1.highByteCache
  useFastPath := h2.useFastPath.trans h1.useFastPath
  fastRam := h2.fastRam.trans h1.fastRam
  phase := h2.phase.trans h1.phase
  icount := h2.icount.trans h1.icount
  sideband := h2.sideband.trans h1.sideband
  cruAnswers := h2.cruAnswers.trans h1.cruAnswers
  requests := h2.requests.trans h1.requests
  response := h2.response.trans h1.response
  log := h2.log.trans h1.log
  params := h2.params.trans h1.params
  ramEpoch := h2.ramEpoch.trans h1.ramEpoch

theorem SameBlock.slot {s t : State} (h : SameBlock s t) (i : Nat) : t.slot i = s.slot i := by
  simp only [State.slot, h.registry]

theorem SameBlock.readMatch {s t : State} (h : SameBlock s t) (i : Nat) (a : Addr) : t.readMatch i a = s.readMatch i a := by
  simp only [State.readMatch, h.slot]

theorem SameBlock.writeMatch {s t : State} (h : SameBlock s t) (i : Nat) (a : Addr) :
    t.writeMatch i a = s.writeMatch i a := by
  simp only [State.writeMatch, h.slot]

theorem SameBlock.reader {s t : State} (h : SameBlock s t) : t.reader = s.reader := by
  funext i
  simp only [State.reader, h.slot]

theorem SameBlock.writer {s t : State} (h : SameBlock s t) : t.writer = s.writer := by
  funext i
  simp only [State.writer, h.slot]

theorem devRead_sameBlock (i : Nat) (a : Addr) (v : Byte) (s : State) : SameBlock s (devRead i a v s).2 := by
  unfold devRead
  split <;> constructor <;> rfl

theorem devWrite_sameBlock (i : Nat) (a : Addr) (b : Byte) (s : State) : SameBlock s (devWrite i a b s) := by
  unfold devWrite
  split <;> constructor <;> rfl

theorem readScan_sameBlock (a : Addr) (is : List Nat) (v : Byte) (s : State) : SameBlock s (readScan a is v s).2 := by
  induction is generalizing v s with
  | nil => exact .refl s
  | cons i is ih =>
    simp only [readScan]
    split
    · exact (devRead_sameBlock i a v s).trans (ih _ _)
    · exact ih v s

theorem writeScan_sameBlock (a : Addr) (b : Byte) (is : List Nat) (s : State) : SameBlock s (writeScan a b is s) := by
  induction is generalizing s with
  | nil => exact .refl s
  | cons i is ih =>
    simp only [writeScan]
    split
    · exact (devWrite_sameBlock i a b s).trans (ih _)
    · exact ih s

/-- Everything a read dispatch does to the value and the trace: one call per matching slot, in the order of the slots, the
last byte kept (R123, R130). -/
theorem readScan_reads (a : Addr) (is : List Nat) (v : Byte) (s : State) :
    ∃ reads : List (Nat × Byte),
      reads.map Prod.fst = is.filter (fun i => s.readMatch i a) ∧
      (readScan a is v s).2.trace = s.trace ++ reads.map (fun r => Event.devRd r.1 a r.2) ∧
      (readScan a is v s).1 = lastByte v reads := by
  induction is generalizing v s with
  | nil => exact ⟨[], rfl, by simp [readScan], rfl⟩
  | cons i is ih =>
    cases hm : s.readMatch i a with
    | false =>
      obtain ⟨reads, h1, h2, h3⟩ := ih v s
      exact ⟨reads, by simp [hm, h1], by simp [readScan, hm, h2], by simp [readScan, hm, h3]⟩
    | true =>
      obtain ⟨hd, f, hr⟩ := reader_of_readMatch hm
      obtain ⟨reads, h1, h2, h3⟩ := ih (devRead i a v s).1 (devRead i a v s).2
      have hb := devRead_sameBlock i a v s
      refine ⟨(i, (devRead i a v s).1) :: reads, ?_, ?_, ?_⟩
      · simp only [hb.readMatch] at h1
        simp [hm, h1]
      · simp only [readScan, hm, if_true, h2]
        simp [devRead_eq hr]
      · simp only [readScan, hm, if_true, h3]
        rfl

/-- Everything a write dispatch does to the trace: one call per matching slot, in the order of the slots, all with the same
byte (R145). -/
theorem writeScan_trace (a : Addr) (b : Byte) (is : List Nat) (s : State) :
    (writeScan a b is s).trace =
      s.trace ++ (is.filter (fun i => s.writeMatch i a)).map (fun i => Event.devWr i a b) := by
  induction is generalizing s with
  | nil => simp [writeScan]
  | cons i is ih =>
    cases hm : s.writeMatch i a with
    | false => simp [writeScan, hm, ih]
    | true =>
      obtain ⟨hd, f, hw⟩ := writer_of_writeMatch hm
      have hb := devWrite_sameBlock i a b s
      simp only [writeScan, hm, if_true, ih, hb.writeMatch]
      simp [devWrite_eq hw, hm]

/-- A read dispatch that no slot answers does nothing (R52, R123). -/
theorem readScan_none (a : Addr) (is : List Nat) (v : Byte) (s : State) (h : is.filter (fun i => s.readMatch i a) = []) :
    readScan a is v s = (v, s) := by
  induction is with
  | nil => rfl
  | cons i is ih =>
    have hm : s.readMatch i a = false := by
      cases hm : s.readMatch i a with
      | false => rfl
      | true => simp [hm] at h
    simp only [readScan, hm]
    exact ih (by simpa [hm] using h)

theorem writeScan_none (a : Addr) (b : Byte) (is : List Nat) (s : State) (h : is.filter (fun i => s.writeMatch i a) = []) :
    writeScan a b is s = s := by
  induction is with
  | nil => rfl
  | cons i is ih =>
    have hm : s.writeMatch i a = false := by
      cases hm : s.writeMatch i a with
      | false => rfl
      | true => simp [hm] at h
    simp only [writeScan, hm]
    exact ih (by simpa [hm] using h)

/-- A read dispatch that one slot answers is one call. -/
theorem readScan_one (a : Addr) (is : List Nat) (v : Byte) (s : State) {i : Nat}
    (h : is.filter (fun i => s.readMatch i a) = [i]) : readScan a is v s = devRead i a v s := by
  induction is with
  | nil => simp at h
  | cons j is ih =>
    cases hm : s.readMatch j a with
    | false =>
      simp only [readScan, hm]
      exact ih (by simpa [hm] using h)
    | true =>
      simp only [List.filter_cons, hm, if_true, List.cons.injEq] at h
      obtain ⟨rfl, h⟩ := h
      simp only [readScan, hm, if_true]
      refine readScan_none a is _ _ ?_
      simpa only [(devRead_sameBlock j a v s).readMatch] using h

theorem writeScan_one (a : Addr) (b : Byte) (is : List Nat) (s : State) {i : Nat}
    (h : is.filter (fun i => s.writeMatch i a) = [i]) : writeScan a b is s = devWrite i a b s := by
  induction is with
  | nil => simp at h
  | cons j is ih =>
    cases hm : s.writeMatch j a with
    | false =>
      simp only [writeScan, hm]
      exact ih (by simpa [hm] using h)
    | true =>
      simp only [List.filter_cons, hm, if_true, List.cons.injEq] at h
      obtain ⟨rfl, h⟩ := h
      simp only [writeScan, hm, if_true]
      refine writeScan_none a b is _ ?_
      simpa only [(devWrite_sameBlock j a b s).writeMatch] using h

theorem deviceAt_setDevice (s : State) (h : Nat) (d : DeviceState) (h' : Nat) :
    (s.setDevice h d).deviceAt h' = if h' = h then d else s.deviceAt h' := by
  simp only [State.deviceAt, State.setDevice_devices, listed_put]
  split <;> rfl

/-- Everything a read dispatch does to the value, the trace, the devices and the draw number: the calls of the matching
slots, one after the other (R123, R125, R27). -/
theorem readScan_calls (a : Addr) (is : List Nat) (v : Byte) (s : State) :
    let calls := readCalls s.reader a (is.filter fun i => s.readMatch i a) v s.deviceAt s.draws
    (readScan a is v s).1 = lastByte v calls.bytes ∧
      (readScan a is v s).2.trace = s.trace ++ calls.bytes.map (fun r => Event.devRd r.1 a r.2) ∧
      (readScan a is v s).2.deviceAt = calls.devices ∧ (readScan a is v s).2.draws = calls.draws := by
  induction is generalizing v s with
  | nil => simp [readScan, readCalls, lastByte]
  | cons i is ih =>
    cases hm : s.readMatch i a with
    | false =>
      simpa [readScan, hm] using ih v s
    | true =>
      obtain ⟨hd, f, hr⟩ := reader_of_readMatch hm
      have hb := devRead_sameBlock i a v s
      have ih := ih (devRead i a v s).1 (devRead i a v s).2
      simp only [hb.readMatch, hb.reader] at ih
      rw [devRead_eq hr] at ih
      have hdev : (((s.setDevice hd (runRead f s.draws hd (s.deviceAt hd) a v).2).record
          (.devRd i a (runRead f s.draws hd (s.deviceAt hd) a v).1)).deviceAt) =
          fun d => if d = hd then (runRead f s.draws hd (s.deviceAt hd) a v).2 else s.deviceAt d :=
        funext fun d => deviceAt_setDevice s hd _ d
      simp only [hdev] at ih
      obtain ⟨h1, h2, h3, h4⟩ := ih
      simp only [readScan, hm, if_true, List.filter_cons, readCalls, hr, devRead_eq hr]
      refine ⟨h1, ?_, h3, h4⟩
      rw [h2]
      simp

/-- Everything a write dispatch does to the devices and the draw number (R145, R146). -/
theorem writeScan_calls (a : Addr) (b : Byte) (is : List Nat) (s : State) :
    ((writeScan a b is s).deviceAt, (writeScan a b is s).draws) =
      writeCalls s.writer a b (is.filter fun i => s.writeMatch i a) s.deviceAt s.draws := by
  induction is generalizing s with
  | nil => rfl
  | cons i is ih =>
    cases hm : s.writeMatch i a with
    | false => simpa [writeScan, hm] using ih s
    | true =>
      obtain ⟨hd, f, hw⟩ := writer_of_writeMatch hm
      have hb := devWrite_sameBlock i a b s
      have ih := ih (devWrite i a b s)
      simp only [hb.writeMatch, hb.writer] at ih
      rw [devWrite_eq hw] at ih
      have hdev : (((s.setDevice hd (runWrite f s.draws hd (s.deviceAt hd) a b)).record (.devWr i a b)).deviceAt) =
          fun d => if d = hd then runWrite f s.draws hd (s.deviceAt hd) a b else s.deviceAt d :=
        funext fun d => deviceAt_setDevice s hd _ d
      rw [hdev] at ih
      simp only [writeScan, hm, if_true, List.filter_cons, writeCalls, hw, devWrite_eq hw]
      exact ih

/-- The calls of two rows of slots are the calls of the first and then of the second. -/
theorem readCalls_append (reader : Nat → Option (Nat × ReadHandler)) (a : Addr) (is js : List Nat) (v : Byte)
    (devices : Nat → DeviceState) (n : Nat) :
    let first := readCalls reader a is v devices n
    let second := readCalls reader a js (lastByte v first.bytes) first.devices first.draws
    readCalls reader a (is ++ js) v devices n = ⟨first.bytes ++ second.bytes, second.devices, second.draws⟩ := by
  induction is generalizing v devices n with
  | nil => rfl
  | cons i is ih =>
    cases hr : reader i with
    | none => simpa [readCalls, hr] using ih v devices n
    | some hf => simp [readCalls, hr, ih, lastByte]

/-- A last slot whose handler returns `prior` changes nothing of the value held (R27, R130). -/
theorem lastByte_returnsPrior {reader : Nat → Option (Nat × ReadHandler)} {i h : Nat} {f : ReadHandler}
    (hr : reader i = some (h, f)) (hf : returnsPrior f) (a : Addr) (is : List Nat) (v : Byte)
    (devices : Nat → DeviceState) (n : Nat) :
    lastByte v (readCalls reader a (is ++ [i]) v devices n).bytes = lastByte v (readCalls reader a is v devices n).bytes := by
  have e := readCalls_append reader a is [i] v devices n
  simp only at e
  rw [e]
  simp only [readCalls, hr]
  unfold lastByte
  rw [List.foldl_append]
  exact hf ..

/-- A dispatch all of whose handlers return `prior` leaves the value held (R27). -/
theorem lastByte_allReturnPrior (s : State) (a : Addr) (is : List Nat) (v : Byte) (devices : Nat → DeviceState) (n : Nat)
    (h : s.allReturnPrior is) : lastByte v (readCalls s.reader a is v devices n).bytes = v := by
  induction is generalizing v devices n with
  | nil => rfl
  | cons i is ih =>
    have ht : s.allReturnPrior is := fun j hj => h j (List.mem_cons_of_mem _ hj)
    cases hr : s.reader i with
    | none => simpa [readCalls, hr] using ih v devices n ht
    | some hf =>
      have hv : (runRead hf.2 n hf.1 (devices hf.1) a v).1 = v := h i List.mem_cons_self hf.1 hf.2 hr ..
      simp only [readCalls, hr, lastByte, List.foldl_cons, hv]
      exact ih v _ _ ht

/-- Calls of KEEP stubs leave every device as it was. -/
theorem readCalls_keep (reader : Nat → Option (Nat × ReadHandler)) (a : Addr) (is : List Nat) (v : Byte)
    (dev : Nat → DeviceState) (n : Nat) (hk : ∀ i h f, i ∈ is → reader i = some (h, f) → f = .keep) :
    (readCalls reader a is v dev n).devices = dev := by
  induction is generalizing v dev n with
  | nil => rfl
  | cons i is ih =>
    have ih := fun v dev n => ih v dev n (fun j h f hj => hk j h f (List.mem_cons_of_mem _ hj))
    cases hr : reader i with
    | none => simp [readCalls, hr, ih]
    | some hf =>
      obtain ⟨h, f⟩ := hf
      have := hk i h f List.mem_cons_self hr
      subst this
      simp only [readCalls, hr, ih]
      funext d
      simp only [runRead]
      split
      · next e => rw [e]
      · rfl

/-- `t` has the devices of `s` in canonical form if `s` has, and no earlier draw number. -/
structure KeepsDevices (s t : State) : Prop where
  keys : risingFrom 0 s.devices = true → risingFrom 0 t.devices = true
  mems : (s.devices.all fun e => e.2.wf) = true → (t.devices.all fun e => e.2.wf) = true
  draws : s.draws ≤ t.draws

theorem KeepsDevices.refl (s : State) : KeepsDevices s s := ⟨id, id, Nat.le_refl _⟩

theorem KeepsDevices.trans {s t u : State} (h1 : KeepsDevices s t) (h2 : KeepsDevices t u) : KeepsDevices s u :=
  ⟨h2.keys ∘ h1.keys, h2.mems ∘ h1.mems, Nat.le_trans h1.draws h2.draws⟩

theorem all_of_listed {α : Type} (t : List (Nat × α)) (p : Nat × α → Bool) (h : t.all p = true) {k : Nat} {v : α}
    (hk : listed t k = some v) : p (k, v) = true := by
  induction t with
  | nil => simp [listed] at hk
  | cons e rest ih =>
    obtain ⟨k', v'⟩ := e
    simp only [List.all_cons, Bool.and_eq_true] at h
    simp only [listed] at hk
    split at hk
    · rename_i hkk; subst hkk; cases hk; exact h.1
    · exact ih h.2 hk

theorem deviceAt_wf {s : State} (h : (s.devices.all fun e => e.2.wf) = true) (k : Nat) : (s.deviceAt k).wf = true := by
  unfold State.deviceAt
  cases hl : listed s.devices k with
  | none => rfl
  | some d => exact all_of_listed s.devices _ h hl

theorem runRead_wf (f : ReadHandler) (n h : Nat) (d : DeviceState) (a : Addr) (v : Byte) (hd : d.wf = true) :
    (runRead f n h d a v).2.wf = true := by
  cases f <;> simpa [runRead, DeviceState.wf] using hd

theorem runWrite_wf (f : WriteHandler) (n h : Nat) (d : DeviceState) (a : Addr) (b : Byte) (hd : d.wf = true) :
    (runWrite f n h d a b).wf = true := by
  cases f with
  | ram8 => exact wf_put b (by simpa using a.isLt) hd
  | external id => simpa [runWrite, DeviceState.wf] using hd

theorem setDevice_keeps (s : State) (h : Nat) (d : DeviceState)
    (hd : (s.devices.all fun e => e.2.wf) = true → d.wf = true) : KeepsDevices s (s.setDevice h d) :=
  ⟨risingFrom_put _ _ _ (Nat.zero_le _), fun hs => all_put _ _ _ _ (hd hs) hs, Nat.le_succ _⟩

theorem devRead_keeps (i : Nat) (a : Addr) (v : Byte) (s : State) : KeepsDevices s (devRead i a v s).2 := by
  unfold devRead
  split
  · exact .refl s
  · rename_i h f _
    have := setDevice_keeps s h _ fun hs => runRead_wf f s.draws h (s.deviceAt h) a v (deviceAt_wf hs h)
    exact ⟨this.keys, this.mems, this.draws⟩

theorem devWrite_keeps (i : Nat) (a : Addr) (b : Byte) (s : State) : KeepsDevices s (devWrite i a b s) := by
  unfold devWrite
  split
  · exact .refl s
  · rename_i h f _
    have := setDevice_keeps s h _ fun hs => runWrite_wf f s.draws h (s.deviceAt h) a b (deviceAt_wf hs h)
    exact ⟨this.keys, this.mems, this.draws⟩

theorem readScan_keeps (a : Addr) (is : List Nat) (v : Byte) (s : State) : KeepsDevices s (readScan a is v s).2 := by
  induction is generalizing v s with
  | nil => exact .refl s
  | cons i is ih =>
    simp only [readScan]
    split
    · exact (devRead_keeps i a v s).trans (ih _ _)
    · exact ih v s

theorem writeScan_keeps (a : Addr) (b : Byte) (is : List Nat) (s : State) : KeepsDevices s (writeScan a b is s) := by
  induction is generalizing s with
  | nil => exact .refl s
  | cons i is ih =>
    simp only [writeScan]
    split
    · exact (devWrite_keeps i a b s).trans (ih _)
    · exact ih s

/-- `OpenBusHigh()` changes at most the draw number (R125). -/
theorem openBusHigh_state (s : State) :
    (openBusHigh s).2 = s ∨ (openBusHigh s).2 = { s with draws := s.draws + 1 } := by
  unfold openBusHigh
  split
  · exact .inl rfl
  · exact .inl rfl
  · exact .inr rfl

theorem openBusHigh_sameBlock (s : State) : SameBlock s (openBusHigh s).2 := by
  rcases openBusHigh_state s with h | h <;> rw [h] <;> constructor <;> rfl

theorem openBusHigh_keeps (s : State) : KeepsDevices s (openBusHigh s).2 := by
  rcases openBusHigh_state s with h | h <;> rw [h]
  · exact .refl s
  · exact ⟨id, id, Nat.le_succ _⟩

theorem openBusHigh_trace (s : State) : (openBusHigh s).2.trace = s.trace := by
  rcases openBusHigh_state s with h | h <;> rw [h]

/-! Mount. -/

/-- The candidates of `cs` a mount gives a slot, each with its device's handle (R103, R104). -/
def mountableOf (p : Params) (sb : Sideband) (cs : List Candidate) : List (Nat × Candidate) :=
  cs.filterMap fun c =>
    if present p sb.runtimeConfig c then (lookupName sb.machineDevices c.deviceName).map fun h => (h, c) else none

/-- The log lines of the candidates of `cs` whose device is missing (R103). -/
def missingOf (sb : Sideband) (cs : List Candidate) : List LogLine :=
  (cs.filter fun c => (lookupName sb.machineDevices c.deviceName).isNone).map fun c => ⟨.cfgDeviceNotFound, c.deviceName⟩

/-- A mount that does not overflow fills the next slots with the mountable candidates, in list order, and logs the missing
devices (R103, R104, R105). -/
theorem mountFrom_fits (p : Params) (sb : Sideband) (cs : List Candidate) (slots : List Descriptor) (log : List LogLine)
    (h : slots.length + (mountableOf p sb cs).length ≤ Config.maxDev) :
    mountFrom p sb cs slots log =
      .mounted (slots ++ (mountableOf p sb cs).map fun m => descriptorOf m.1 m.2) (log ++ missingOf sb cs) := by
  induction cs generalizing slots log with
  | nil => simp [mountFrom, mountableOf, missingOf]
  | cons c cs ih =>
    unfold mountFrom
    cases hl : lookupName sb.machineDevices c.deviceName with
    | none =>
      have hm : mountableOf p sb (c :: cs) = mountableOf p sb cs := by simp [mountableOf, hl]
      rw [hm] at h ⊢
      simp only [ih slots _ h]
      simp [missingOf, hl]
    | some hd =>
      have hlog : missingOf sb (c :: cs) = missingOf sb cs := by simp [missingOf, hl]
      cases hp : present p sb.runtimeConfig c with
      | false =>
        have hm : mountableOf p sb (c :: cs) = mountableOf p sb cs := by simp [mountableOf, hp]
        rw [hm] at h ⊢
        simp only [hlog]
        exact ih slots log h
      | true =>
        have hm : mountableOf p sb (c :: cs) = (hd, c) :: mountableOf p sb cs := by simp [mountableOf, hl, hp]
        rw [hm, List.length_cons] at h
        have hlen : ¬ slots.length = Config.maxDev := by omega
        simp only [if_true, if_neg hlen]
        rw [ih (slots ++ [descriptorOf hd c]) log (by rw [List.length_append, List.length_singleton]; omega), hm, hlog]
        simp

/-- With `refuse`, a mount that overflows names the first candidate that does not fit (R106, R171). -/
theorem mountFrom_overflows (p : Params) (sb : Sideband) (hp : p.overflowPolicy = .refuse) (cs : List Candidate)
    (slots : List Descriptor) (log : List LogLine) (hs : slots.length ≤ Config.maxDev)
    (h : Config.maxDev < slots.length + (mountableOf p sb cs).length) :
    ∃ m log', (mountableOf p sb cs)[Config.maxDev - slots.length]? = some m ∧
      mountFrom p sb cs slots log = .overflow m.2.deviceName log' := by
  induction cs generalizing slots log with
  | nil => simp [mountableOf] at h; omega
  | cons c cs ih =>
    unfold mountFrom
    cases hl : lookupName sb.machineDevices c.deviceName with
    | none =>
      have hm : mountableOf p sb (c :: cs) = mountableOf p sb cs := by simp [mountableOf, hl]
      rw [hm] at h ⊢
      exact ih slots _ hs h
    | some hd =>
      cases hpr : present p sb.runtimeConfig c with
      | false =>
        have hm : mountableOf p sb (c :: cs) = mountableOf p sb cs := by simp [mountableOf, hpr]
        rw [hm] at h ⊢
        exact ih slots log hs h
      | true =>
        have hm : mountableOf p sb (c :: cs) = (hd, c) :: mountableOf p sb cs := by simp [mountableOf, hl, hpr]
        rw [hm, List.length_cons] at h
        rw [hm]
        by_cases hlen : slots.length = Config.maxDev
        · refine ⟨(hd, c), log, by simp [hlen], ?_⟩
          simp only [if_true, if_pos hlen, hp]
        · simp only [if_true, if_neg hlen]
          obtain ⟨m, log', h1, h2⟩ := ih (slots ++ [descriptorOf hd c]) log
            (by rw [List.length_append, List.length_singleton]; omega)
            (by rw [List.length_append, List.length_singleton]; omega)
          refine ⟨m, log', ?_, h2⟩
          rw [List.length_append, List.length_singleton] at h1
          rw [show Config.maxDev - slots.length = (Config.maxDev - (slots.length + 1)) + 1 by omega, List.getElem?_cons_succ]
          exact h1

/-- The line a mount under `drop` logs for candidate `c` of number `k` (R103, R106). -/
def dropLine (p : Params) (sb : Sideband) (c : Candidate) (k : Nat) : Option LogLine :=
  if (lookupName sb.machineDevices c.deviceName).isNone then some ⟨.cfgDeviceNotFound, c.deviceName⟩
  else if present p sb.runtimeConfig c &&
      decide (Config.maxDev ≤ (mountableOf p sb (sb.candidates.take k)).length) then some ⟨.registryOverflow, c.deviceName⟩
  else none

theorem dropLines_eq (p : Params) (sb : Sideband) :
    dropLines p sb = sb.candidates.zipIdx.filterMap fun e => dropLine p sb e.1 e.2 := rfl

/-- With `drop`, a mount keeps the first ten and logs each missing and each further candidate (R103, R106). -/
theorem mountFrom_drops (p : Params) (sb : Sideband) (hp : p.overflowPolicy = .drop) (cs done : List Candidate)
    (slots : List Descriptor) (log : List LogLine) (hc : sb.candidates = done ++ cs)
    (hs : slots.length = min (mountableOf p sb done).length Config.maxDev) :
    mountFrom p sb cs slots log =
      .mounted ((slots ++ (mountableOf p sb cs).map fun m => descriptorOf m.1 m.2).take Config.maxDev)
        (log ++ (cs.zipIdx done.length).filterMap fun e => dropLine p sb e.1 e.2) := by
  induction cs generalizing done slots log with
  | nil => simp [mountFrom, mountableOf, List.take_of_length_le (show slots.length ≤ Config.maxDev by omega)]
  | cons c cs ih =>
    have hc' : sb.candidates = (done ++ [c]) ++ cs := by rw [hc, List.append_assoc]; rfl
    have hlast : mountableOf p sb (done ++ [c]) = mountableOf p sb done ++ mountableOf p sb [c] := by
      simp [mountableOf, List.filterMap_append]
    have htake : sb.candidates.take done.length = done := by rw [hc]; simp
    have hz : (c :: cs).zipIdx done.length = (c, done.length) :: cs.zipIdx (done ++ [c]).length := by simp
    rw [hz, List.filterMap_cons]
    unfold mountFrom
    cases hl : lookupName sb.machineDevices c.deviceName with
    | none =>
      have hm : mountableOf p sb (c :: cs) = mountableOf p sb cs := by simp [mountableOf, hl]
      have hm1 : mountableOf p sb [c] = [] := by simp [mountableOf, hl]
      simp only [dropLine, hl, Option.isNone_none, if_true, hm]
      rw [ih (done ++ [c]) slots _ hc' (by rw [hlast, hm1, List.append_nil, hs])]
      simp [dropLine]
    | some hd =>
      cases hpr : present p sb.runtimeConfig c with
      | false =>
        have hm : mountableOf p sb (c :: cs) = mountableOf p sb cs := by simp [mountableOf, hpr]
        have hm1 : mountableOf p sb [c] = [] := by simp [mountableOf, hpr]
        simp only [dropLine, hl, hpr, hm, Option.isNone_some, Bool.false_and]
        exact ih (done ++ [c]) slots log hc' (by rw [hlast, hm1, List.append_nil, hs])
      | true =>
        have hm : mountableOf p sb (c :: cs) = (hd, c) :: mountableOf p sb cs := by simp [mountableOf, hl, hpr]
        have hm1 : mountableOf p sb [c] = [(hd, c)] := by simp [mountableOf, hl, hpr]
        have hlen : (mountableOf p sb (done ++ [c])).length = (mountableOf p sb done).length + 1 := by
          rw [hlast, hm1, List.length_append, List.length_singleton]
        simp only [dropLine, hl, hpr, hm, htake, Option.isNone_some, Bool.true_and, if_true]
        by_cases hfull : slots.length = Config.maxDev
        · have hten : Config.maxDev ≤ (mountableOf p sb done).length := by omega
          simp only [if_pos hfull, hp, decide_eq_true hten, if_true]
          rw [ih (done ++ [c]) slots _ hc' (by omega), List.take_append_of_le_length (by omega),
            List.take_append_of_le_length (by omega)]
          simp [dropLine]
        · have hten : ¬ Config.maxDev ≤ (mountableOf p sb done).length := by omega
          simp only [if_neg hfull, decide_eq_false hten]
          rw [ih (done ++ [c]) (slots ++ [descriptorOf hd c]) log hc'
            (by rw [List.length_append, List.length_singleton]; omega)]
          simp [dropLine]

/-- The overflow lines of the candidates `cs` that follow `done`: one for each mountable one after the tenth (R106). -/
theorem dropLine_overflows (p : Params) (sb : Sideband) (cs done : List Candidate) (hc : sb.candidates = done ++ cs) :
    ((cs.zipIdx done.length).filterMap fun e => dropLine p sb e.1 e.2).filter (fun l => l.code == .registryOverflow) =
      ((mountableOf p sb cs).drop (10 - (mountableOf p sb done).length)).map
        (fun m => ⟨.registryOverflow, m.2.deviceName⟩) := by
  induction cs generalizing done with
  | nil => simp [mountableOf]
  | cons c cs ih =>
    have hc' : sb.candidates = (done ++ [c]) ++ cs := by rw [hc, List.append_assoc]; rfl
    have ih := ih _ hc'
    have htake : sb.candidates.take done.length = done := by rw [hc]; simp
    have hz : (c :: cs).zipIdx done.length = (c, done.length) :: cs.zipIdx (done ++ [c]).length := by simp
    rw [hz, List.filterMap_cons]
    have hlast : mountableOf p sb (done ++ [c]) = mountableOf p sb done ++ mountableOf p sb [c] := by
      simp [mountableOf, List.filterMap_append]
    have hcons : mountableOf p sb (c :: cs) = mountableOf p sb [c] ++ mountableOf p sb cs := by
      rw [← List.singleton_append]; simp only [mountableOf, List.filterMap_append]
    rw [hlast] at ih
    rw [hcons]
    cases hl : lookupName sb.machineDevices c.deviceName with
    | none =>
      have hm1 : mountableOf p sb [c] = [] := by simp [mountableOf, hl]
      rw [hm1] at ih ⊢
      simp only [List.append_nil, List.nil_append] at ih ⊢
      have hd : dropLine p sb c done.length = some ⟨.cfgDeviceNotFound, c.deviceName⟩ := by simp [dropLine, hl]
      rw [hd]
      simpa using ih
    | some hd =>
      cases hpr : present p sb.runtimeConfig c with
      | false =>
        have hm1 : mountableOf p sb [c] = [] := by simp [mountableOf, hpr]
        rw [hm1] at ih ⊢
        simp only [List.append_nil, List.nil_append] at ih ⊢
        have hd : dropLine p sb c done.length = none := by simp [dropLine, hl, hpr]
        rw [hd]
        exact ih
      | true =>
        have hm1 : mountableOf p sb [c] = [(hd, c)] := by simp [mountableOf, hl, hpr]
        rw [hm1] at ih ⊢
        simp only [List.length_append, List.length_singleton] at ih ⊢
        by_cases hten : Config.maxDev ≤ (mountableOf p sb done).length
        · have h10 : 10 ≤ (mountableOf p sb done).length := hten
          have hd' : dropLine p sb c done.length = some ⟨.registryOverflow, c.deviceName⟩ := by
            simp only [dropLine, hl, hpr, htake, Option.isNone_some, Bool.true_and, decide_eq_true hten]; rfl
          rw [hd']
          rw [show 10 - (mountableOf p sb done).length = 0 by omega]
          rw [show 10 - ((mountableOf p sb done).length + 1) = 0 by omega] at ih
          simpa using ih
        · have h10 : ¬ 10 ≤ (mountableOf p sb done).length := hten
          have hd' : dropLine p sb c done.length = none := by
            simp only [dropLine, hl, hpr, htake, Option.isNone_some, Bool.true_and, decide_eq_false hten]; rfl
          rw [hd']
          rw [show 10 - (mountableOf p sb done).length = (10 - ((mountableOf p sb done).length + 1)) + 1 by omega]
          exact ih

/-- The descriptors a mount gives have a handler each, if the candidates have (R107), and there are at most ten. -/
theorem mountFrom_mounted (p : Params) (sb : Sideband) (cs : List Candidate) (slots : List Descriptor) (log : List LogLine)
    (hs : slots.length ≤ Config.maxDev) (hw : slots.all descriptorWf = true)
    (hc : (cs.all fun c => c.readFn.isSome || c.writeFn.isSome) = true) {slots' : List Descriptor} {log' : List LogLine}
    (h : mountFrom p sb cs slots log = .mounted slots' log') :
    slots'.length ≤ Config.maxDev ∧ slots'.all descriptorWf = true := by
  induction cs generalizing slots log with
  | nil => simp only [mountFrom, MountResult.mounted.injEq] at h; obtain ⟨rfl, -⟩ := h; exact ⟨hs, hw⟩
  | cons c cs ih =>
    simp only [List.all_cons, Bool.and_eq_true] at hc
    unfold mountFrom at h
    split at h
    · exact ih _ _ hs hw hc.2 h
    · split at h
      · split at h
        · split at h
          · cases h
          · exact ih _ _ hs hw hc.2 h
        · refine ih _ _ ?_ ?_ hc.2 h
          · rw [List.length_append, List.length_singleton]; omega
          · simp only [List.all_append, hw, List.all_cons, List.all_nil, Bool.and_true, Bool.true_and]
            exact hc.1
      · exact ih _ _ hs hw hc.2 h

/-- Slot `i` of the registry a mount fills (R22, R105). -/
theorem fillRegistry_slot (slots : List Descriptor) {i : Nat} (hi : i < Config.maxDev) :
    ((fillRegistry slots)[i]?).join = slots[i]? := by
  have e : (fillRegistry slots)[i]? = ((slots.map some ++ List.replicate Config.maxDev none).take Config.maxDev)[i]? := by
    simp [fillRegistry]
  rw [e, List.getElem?_take_of_lt hi]
  by_cases hlt : i < slots.length
  · rw [List.getElem?_append_left (by simpa using hlt)]
    simp [List.getElem?_eq_getElem hlt]
  · have hn : slots[i]? = none := List.getElem?_eq_none (by omega)
    rw [List.getElem?_append_right (by simpa using hlt), hn, List.getElem?_replicate]
    split <;> rfl

/-! Requests. -/

/-- When an access at an even address goes on (R32, R44, R175). -/
theorem wordAccess_next_iff {a : Addr} {s u t : State} :
    wordAccess a s u = .next t ↔ isEven a = true ∧ s.phase = .run ∧ u = t := by
  unfold wordAccess State.admitsAccess
  split
  · rename_i he
    split
    · rename_i hp; simp only [beq_iff_eq] at hp; simp [he, hp]
    · rename_i hp; simp only [beq_iff_eq] at hp; simp [hp]
  · rename_i he; simp [he]

theorem cruAccess_next_iff {s u t : State} : cruAccess s u = .next t ↔ s.phase = .run ∧ u = t := by
  unfold cruAccess State.admitsAccess
  split
  · rename_i hp; simp only [beq_iff_eq] at hp; simp [hp]
  · rename_i hp; simp only [beq_iff_eq] at hp; simp [hp]

/-- What `EnvCruRead` may change (R160). -/
theorem envCruRead_state (c : Nat) (s : State) :
    ∃ answers n, s.draws ≤ n ∧ (envCruRead c s).2 = { s with cruAnswers := answers, draws := n } := by
  unfold envCruRead
  split
  · exact ⟨_, s.draws, Nat.le_refl _, rfl⟩
  · exact ⟨s.cruAnswers, s.draws + 1, Nat.le_succ _, rfl⟩

end Sys2Proof.Machine
end

