-- ==== Sys2Proof/Laws/Paths.lean ====
section
/-! SUPPORT. What each path of a word access does, said once: the answers of `exec`, and the two dispatch paths. -/

namespace Sys2Proof.Machine

/-- The merged word of a write is the one the three rules give (R142 to R144). -/
theorem merged_eq (s : State) (mask : ByteMask) (v : Word) : s.merged mask v = mergedWord s v mask := by
  unfold State.merged mergeWord mergedWord
  cases s.params.mergeMode
  cases mask <;> rfl

theorem exec_write16Form (mask : ByteMask) (a : Addr) (v : Word) (s : State) :
    exec (write16Form mask a v) s = write16 mask a v s := by
  cases mask <;> rfl

theorem exec_read16_dispatch {s : State} {a : Addr} (he : isEven a = true) (hp : s.phase = .run)
    (hb : s.bypass a = false) : exec (.read16 a) s = .next (readDispatch a s) := by
  simp [exec, execRead16, wordAccess, he, State.admitsAccess, hp, hb]

theorem exec_read16_bypass {s : State} {a : Addr} (he : isEven a = true) (hp : s.phase = .run)
    (hb : s.bypass a = true) : exec (.read16 a) s = .next (readBypass a s) := by
  simp [exec, execRead16, wordAccess, he, State.admitsAccess, hp, hb]

theorem exec_write16_dispatch {s : State} {a : Addr} (mask : ByteMask) (v : Word) (he : isEven a = true)
    (hp : s.phase = .run) (hb : s.bypass a = false) :
    exec (write16Form mask a v) s = .next (writeDispatch a (mergedWord s v mask) s) := by
  simp [exec_write16Form, write16, wordAccess, he, State.admitsAccess, hp, hb, merged_eq]

theorem exec_write16_bypass {s : State} {a : Addr} (mask : ByteMask) (v : Word) (he : isEven a = true)
    (hp : s.phase = .run) (hb : s.bypass a = true) :
    exec (write16Form mask a v) s = .next (writeBypass a (mergedWord s v mask) s) := by
  simp [exec_write16Form, write16, wordAccess, he, State.admitsAccess, hp, hb, merged_eq]

/-- A read that answers a next state took one of the two paths, at an even address in the run phase. -/
theorem exec_read16_cases {s t : State} {a : Addr} (h : exec (.read16 a) s = .next t) :
    isEven a = true ∧ s.phase = .run ∧
      ((s.bypass a = true ∧ t = readBypass a s) ∨ (s.bypass a = false ∧ t = readDispatch a s)) := by
  obtain ⟨he, hp, rfl⟩ := wordAccess_next_iff.mp h
  refine ⟨he, hp, ?_⟩
  cases hb : s.bypass a with
  | true => exact .inl ⟨rfl, if_pos rfl⟩
  | false => exact .inr ⟨rfl, if_neg (by simp)⟩

/-- A write that answers a next state took one of the two paths, at an even address in the run phase. -/
theorem exec_write16_cases {s t : State} {mask : ByteMask} {a : Addr} {v : Word}
    (h : exec (write16Form mask a v) s = .next t) :
    isEven a = true ∧ s.phase = .run ∧
      ((s.bypass a = true ∧ t = writeBypass a (mergedWord s v mask) s) ∨
        (s.bypass a = false ∧ t = writeDispatch a (mergedWord s v mask) s)) := by
  rw [exec_write16Form] at h
  obtain ⟨he, hp, rfl⟩ := wordAccess_next_iff.mp h
  refine ⟨he, hp, ?_⟩
  simp only [merged_eq]
  cases hb : s.bypass a with
  | true => exact .inl ⟨rfl, if_pos rfl⟩
  | false => exact .inr ⟨rfl, if_neg (by simp)⟩

theorem openBusHigh_value (s : State) :
    (s.params.openBusHigh = .cache → (openBusHigh s).1 = s.highByteCache) ∧
      (s.params.openBusHigh = .zero → (openBusHigh s).1 = 0#8) := by
  constructor <;> intro h <;> simp [openBusHigh, h]

/-- After the low-byte dispatch: the block is as before but for `latch`, and 3 cycles are gone (R123, R124). -/
theorem readLowDispatch_frame (a : Addr) (s : State) :
    SameBlock { s with latch := (readLowDispatch a s).latch, icount := s.icount - 3 } (readLowDispatch a s) ∧
      KeepsDevices s (readLowDispatch a s) := by
  have hb := readScan_sameBlock (oddAddress a) slotNumbers s.latch s
  have hk := readScan_keeps (oddAddress a) slotNumbers s.latch s
  refine ⟨?_, ⟨hk.keys, hk.mems, hk.draws⟩⟩
  constructor <;> simp [readLowDispatch, hb.registry, hb.devindex, hb.lowByteCache, hb.highByteCache, hb.useFastPath,
    hb.fastRam, hb.phase, hb.icount, hb.sideband, hb.cruAnswers, hb.requests, hb.response, hb.log, hb.params, hb.ramEpoch,
    Config.waitCycles]

/-- After the high-byte dispatch: the block is as before, and 3 cycles are gone (R125, R127). -/
theorem readHighDispatch_frame (a : Addr) (s : State) :
    SameBlock { s with icount := s.icount - 3 } (readHighDispatch a s).2 ∧ KeepsDevices s (readHighDispatch a s).2 := by
  have ho := openBusHigh_sameBlock s
  have hb := ho.trans (readScan_sameBlock a slotNumbers (openBusHigh s).1 (openBusHigh s).2)
  have hk := (openBusHigh_keeps s).trans (readScan_keeps a slotNumbers (openBusHigh s).1 (openBusHigh s).2)
  refine ⟨?_, ⟨hk.keys, hk.mems, hk.draws⟩⟩
  constructor <;> simp [readHighDispatch, hb.registry, hb.devindex, hb.latch, hb.lowByteCache, hb.highByteCache,
    hb.useFastPath, hb.fastRam, hb.phase, hb.icount, hb.sideband, hb.cruAnswers, hb.requests, hb.response, hb.log,
    hb.params, hb.ramEpoch, Config.waitCycles]

/-- Everything the dispatch path of a read leaves as it was, and what it charges (R120, R132). -/
theorem readDispatch_frame (a : Addr) (s : State) :
    SameBlock { s with latch := (readDispatch a s).latch, lowByteCache := (readDispatch a s).lowByteCache,
                       highByteCache := (readDispatch a s).highByteCache, response := (readDispatch a s).response,
                       icount := s.icount - 6 } (readDispatch a s) ∧
      KeepsDevices s (readDispatch a s) := by
  obtain ⟨h1, k1⟩ := readLowDispatch_frame a s
  obtain ⟨h2, k2⟩ := readHighDispatch_frame a (readLowDispatch a s)
  have k := k1.trans k2
  refine ⟨?_, ⟨k.keys, k.mems, k.draws⟩⟩
  have hi : (readLowDispatch a s).icount - 3 = s.icount - 6 := by rw [h1.icount]; simp only; omega
  constructor <;> simp [readDispatch, h2.registry, h2.devindex, h2.useFastPath, h2.fastRam, h2.phase, h2.icount,
    h2.sideband, h2.cruAnswers, h2.requests, h2.log, h2.params, h2.ramEpoch, h1.registry, h1.devindex, h1.useFastPath,
    h1.fastRam, h1.phase, h1.sideband, h1.cruAnswers, h1.requests, h1.log, h1.params, h1.ramEpoch, hi]

/-- The calls and values of a read on the dispatch path (R123, R125, R128, R129, R130, R54). -/
theorem readDispatch_reads (a : Addr) (s : State) :
    ∃ low high : List (Nat × Byte), ∃ start : Byte,
      low.map Prod.fst = s.readSlots (oddAddress a) ∧ high.map Prod.fst = s.readSlots a ∧
      (readDispatch a s).trace = s.trace ++ low.map (fun r => Event.devRd r.1 (oddAddress a) r.2) ++ [Event.wait 3] ++
        high.map (fun r => Event.devRd r.1 a r.2) ++ [Event.wait 3] ∧
      (s.params.openBusHigh = .cache → start = s.highByteCache) ∧
      (s.params.openBusHigh = .zero → start = 0#8) ∧
      (readDispatch a s).latch = lastByte s.latch low ∧
      (readDispatch a s).lowByteCache = (readDispatch a s).latch ∧
      (readDispatch a s).highByteCache = lastByte start high ∧
      (readDispatch a s).response = .word (ofBytes (readDispatch a s).highByteCache (readDispatch a s).latch) := by
  obtain ⟨low, l1, l2, l3⟩ := readScan_reads (oddAddress a) slotNumbers s.latch s
  have lb := (readLowDispatch_frame a s).1
  have lt : (readLowDispatch a s).trace = s.trace ++ low.map (fun r => Event.devRd r.1 (oddAddress a) r.2) ++ [.wait 3] := by
    simp [readLowDispatch, l2, Config.waitCycles]
  have ll : (readLowDispatch a s).latch = lastByte s.latch low := l3
  have e : readDispatch a s = ((readHighDispatch a (readLowDispatch a s)).2.setCaches
      (readHighDispatch a (readLowDispatch a s)).2.latch (readHighDispatch a (readLowDispatch a s)).1).respond
        (.word (ofBytes (readHighDispatch a (readLowDispatch a s)).1 (readHighDispatch a (readLowDispatch a s)).2.latch)) := rfl
  generalize readLowDispatch a s = m at *
  have hb := (readHighDispatch_frame a m).1
  have ob := openBusHigh_sameBlock m
  obtain ⟨high, h1, h2, h3⟩ := readScan_reads a slotNumbers (openBusHigh m).1 (openBusHigh m).2
  have ht : (readHighDispatch a m).2.trace = m.trace ++ high.map (fun r => Event.devRd r.1 a r.2) ++ [.wait 3] := by
    simp [readHighDispatch, h2, openBusHigh_trace, Config.waitCycles]
  have hv : (readHighDispatch a m).1 = lastByte (openBusHigh m).1 high := h3
  have hm : ∀ i, (openBusHigh m).2.readMatch i a = s.readMatch i a := fun i => by
    rw [ob.readMatch, lb.readMatch]; rfl
  refine ⟨low, high, (openBusHigh m).1, l1, ?_, ?_, ?_, ?_, ?_, ?_, ?_, ?_⟩
  · simp only [hm] at h1; exact h1
  · simp [e, ht, lt]
  · intro hc; rw [(openBusHigh_value m).1 (by rw [lb.params]; exact hc), lb.highByteCache]
  · intro hc; exact (openBusHigh_value m).2 (by rw [lb.params]; exact hc)
  · simp [e, hb.latch, ll]
  · simp [e]
  · simp [e, hv]
  · simp [e]

/-- The bytes, the calls and the devices of a read on the dispatch path, whichever slots answer (R123, R125, R126, R130). -/
theorem readDispatch_calls (a : Addr) (s : State) :
    ∃ (start : Byte) (n : Nat),
      let low := readCalls s.reader (oddAddress a) (s.readSlots (oddAddress a)) s.latch s.deviceAt s.draws
      let high := readCalls s.reader a (s.readSlots a) start low.devices n
      (s.params.openBusHigh = .cache → start = s.highByteCache ∧ n = low.draws) ∧
      (s.params.openBusHigh = .zero → start = 0#8 ∧ n = low.draws) ∧
      (readDispatch a s).trace = s.trace ++ low.bytes.map (fun r => Event.devRd r.1 (oddAddress a) r.2) ++ [Event.wait 3] ++
        high.bytes.map (fun r => Event.devRd r.1 a r.2) ++ [Event.wait 3] ∧
      (readDispatch a s).latch = lastByte s.latch low.bytes ∧
      (readDispatch a s).highByteCache = lastByte start high.bytes ∧
      (readDispatch a s).response = .word (ofBytes (lastByte start high.bytes) (lastByte s.latch low.bytes)) ∧
      ∀ d, (readDispatch a s).deviceAt d = high.devices d := by
  obtain ⟨l1, l2, l3, l4⟩ := readScan_calls (oddAddress a) slotNumbers s.latch s
  have lb := (readLowDispatch_frame a s).1
  have hlow : slotNumbers.filter (fun i => s.readMatch i (oddAddress a)) = s.readSlots (oddAddress a) := rfl
  rw [hlow] at l1 l2 l3 l4
  generalize readCalls s.reader (oddAddress a) (s.readSlots (oddAddress a)) s.latch s.deviceAt s.draws = low at *
  have ml : (readLowDispatch a s).latch = lastByte s.latch low.bytes := l1
  have mt : (readLowDispatch a s).trace = s.trace ++ low.bytes.map (fun r => Event.devRd r.1 (oddAddress a) r.2) ++ [.wait 3] := by
    simp [readLowDispatch, l2, Config.waitCycles]
  have md : (readLowDispatch a s).deviceAt = low.devices := l3
  have mn : (readLowDispatch a s).draws = low.draws := l4
  have e : readDispatch a s = ((readHighDispatch a (readLowDispatch a s)).2.setCaches
      (readHighDispatch a (readLowDispatch a s)).2.latch (readHighDispatch a (readLowDispatch a s)).1).respond
        (.word (ofBytes (readHighDispatch a (readLowDispatch a s)).1 (readHighDispatch a (readLowDispatch a s)).2.latch)) := rfl
  generalize readLowDispatch a s = m at *
  have hb := (readHighDispatch_frame a m).1
  have ob := openBusHigh_sameBlock m
  have hm : ∀ i, (openBusHigh m).2.readMatch i a = s.readMatch i a := fun i => by rw [ob.readMatch, lb.readMatch]; rfl
  have hr : (openBusHigh m).2.reader = s.reader := by rw [ob.reader, lb.reader]; rfl
  have hd : (openBusHigh m).2.deviceAt = low.devices := by
    rw [← md]
    rcases openBusHigh_state m with h | h
    · rw [h]
    · rw [h]; rfl
  obtain ⟨h1, h2, h3, -⟩ := readScan_calls a slotNumbers (openBusHigh m).1 (openBusHigh m).2
  have hhigh : slotNumbers.filter (fun i => s.readMatch i a) = s.readSlots a := rfl
  simp only [hm, hr, hd, hhigh] at h1 h2 h3
  have hv : (readHighDispatch a m).1 = lastByte (openBusHigh m).1
      (readCalls s.reader a (s.readSlots a) (openBusHigh m).1 low.devices (openBusHigh m).2.draws).bytes := h1
  have ht : (readHighDispatch a m).2.trace = m.trace ++
      (readCalls s.reader a (s.readSlots a) (openBusHigh m).1 low.devices (openBusHigh m).2.draws).bytes.map
        (fun r => Event.devRd r.1 a r.2) ++ [.wait 3] := by
    simp [readHighDispatch, h2, openBusHigh_trace, Config.waitCycles]
  have hp : m.params = s.params := lb.params
  have hh : m.highByteCache = s.highByteCache := lb.highByteCache
  refine ⟨(openBusHigh m).1, (openBusHigh m).2.draws, ?_, ?_, ?_, ?_, ?_, ?_, ?_⟩
  · intro hc; simp [openBusHigh, hp, hc, hh, mn]
  · intro hc; simp [openBusHigh, hp, hc, mn]
  · simp [e, ht, mt]
  · simp [e, hb.latch, ml]
  · simp [e, hv]
  · simp [e, hv, hb.latch, ml]
  · intro d; rw [e]; exact congrFun h3 d

/-- The devices after a write on the dispatch path, whichever slots accept it (R145, R146). -/
theorem writeDispatch_calls (a : Addr) (v : Word) (s : State) :
    let low := writeCalls s.writer (oddAddress a) (lowByte v) (s.writeSlots (oddAddress a)) s.deviceAt s.draws
    let high := writeCalls s.writer a (highByte v) (s.writeSlots a) low.1 low.2
    (writeDispatch a v s).deviceAt = high.1 ∧ (writeDispatch a v s).draws = high.2 := by
  have l := writeScan_calls (oddAddress a) (lowByte v) slotNumbers s
  have lb := writeScan_sameBlock (oddAddress a) (lowByte v) slotNumbers s
  have e : writeDispatch a v s = ((writeScan a (highByte v) slotNumbers
      ((writeScan (oddAddress a) (lowByte v) slotNumbers s).consume Config.waitCycles)).consume Config.waitCycles).respond
        .nothing := rfl
  generalize writeScan (oddAddress a) (lowByte v) slotNumbers s = m at *
  have h := writeScan_calls a (highByte v) slotNumbers (m.consume Config.waitCycles)
  have hm : ∀ i, (m.consume Config.waitCycles).writeMatch i a = s.writeMatch i a := fun i => by
    rw [← lb.writeMatch i a]; rfl
  have hw : (m.consume Config.waitCycles).writer = s.writer := by rw [← lb.writer]; rfl
  simp only [hm, hw] at h
  have l1 : m.deviceAt = _ := congrArg Prod.fst l
  have l2 : m.draws = _ := congrArg Prod.snd l
  have h' : _ = writeCalls s.writer a (highByte v) (s.writeSlots a) m.deviceAt m.draws := h
  rw [l1, l2] at h'
  exact e ▸ ⟨congrArg Prod.fst h', congrArg Prod.snd h'⟩

/-- Everything the dispatch path of a write does, but for the device table (R145, R146, R148, R149). -/
theorem writeDispatch_spec (a : Addr) (v : Word) (s : State) :
    SameBlock { s with icount := s.icount - 6, response := .nothing } (writeDispatch a v s) ∧
      KeepsDevices s (writeDispatch a v s) ∧
      (writeDispatch a v s).trace = s.trace ++
        (s.writeSlots (oddAddress a)).map (fun i => Event.devWr i (oddAddress a) (lowByte v)) ++ [Event.wait 3] ++
        (s.writeSlots a).map (fun i => Event.devWr i a (highByte v)) ++ [Event.wait 3] := by
  have lt := writeScan_trace (oddAddress a) (lowByte v) slotNumbers s
  have lb := writeScan_sameBlock (oddAddress a) (lowByte v) slotNumbers s
  have lk := writeScan_keeps (oddAddress a) (lowByte v) slotNumbers s
  have e : writeDispatch a v s = ((writeScan a (highByte v) slotNumbers
      ((writeScan (oddAddress a) (lowByte v) slotNumbers s).consume Config.waitCycles)).consume Config.waitCycles).respond
        .nothing := rfl
  generalize writeScan (oddAddress a) (lowByte v) slotNumbers s = m at *
  have hb := writeScan_sameBlock a (highByte v) slotNumbers (m.consume Config.waitCycles)
  have ht := writeScan_trace a (highByte v) slotNumbers (m.consume Config.waitCycles)
  have hk := writeScan_keeps a (highByte v) slotNumbers (m.consume Config.waitCycles)
  have hm : ∀ i, (m.consume Config.waitCycles).writeMatch i a = s.writeMatch i a := fun i => by
    rw [← lb.writeMatch i a]; rfl
  generalize writeScan a (highByte v) slotNumbers (m.consume Config.waitCycles) = u at *
  have hi : m.icount - 3 - 3 = s.icount - 6 := by rw [lb.icount]; omega
  refine ⟨?_, ⟨fun h => e ▸ hk.keys (lk.keys h), fun h => e ▸ hk.mems (lk.mems h), e ▸ Nat.le_trans lk.draws hk.draws⟩, ?_⟩
  · constructor <;> simp [e, hb.registry, hb.devindex, hb.latch, hb.lowByteCache, hb.highByteCache, hb.useFastPath,
      hb.fastRam, hb.phase, hb.icount, hb.sideband, hb.cruAnswers, hb.requests, hb.log, hb.params, hb.ramEpoch,
      lb.registry, lb.devindex, lb.latch, lb.lowByteCache, lb.highByteCache, lb.useFastPath, lb.fastRam, lb.phase,
      lb.sideband, lb.cruAnswers, lb.requests, lb.log, lb.params, lb.ramEpoch, Config.waitCycles, hi]
  · have hw : slotNumbers.filter (fun i => (m.consume Config.waitCycles).writeMatch i a) = s.writeSlots a := by
      simp only [hm]; rfl
    rw [hw] at ht
    have lw : slotNumbers.filter (fun i => s.writeMatch i (oddAddress a)) = s.writeSlots (oddAddress a) := rfl
    rw [lw] at lt
    simp [e, ht, lt, Config.waitCycles]

/-! The other operations, and the cases of an instruction. -/

/-- The five kinds of operation (R2): the three forms of `write16` taken together. -/
theorem instr_cases (i : Instr) :
    (∃ a, i = .read16 a) ∨ (∃ mask a v, i = write16Form mask a v) ∨ (∃ c, i = .cruRead c) ∨ (∃ c v, i = .cruWrite c v) ∨
      i = .reset := by
  cases i with
  | read16 a => exact .inl ⟨a, rfl⟩
  | write16Word a v => exact .inr (.inl ⟨.word, a, v, rfl⟩)
  | write16HighByteOnly a v => exact .inr (.inl ⟨.highByteOnly, a, v, rfl⟩)
  | write16LowByteOnly a v => exact .inr (.inl ⟨.lowByteOnly, a, v, rfl⟩)
  | cruRead c => exact .inr (.inr (.inl ⟨c, rfl⟩))
  | cruWrite c v => exact .inr (.inr (.inr (.inl ⟨c, v, rfl⟩)))
  | reset => exact .inr (.inr (.inr (.inr rfl)))

theorem exec_cruRead_cases {s t : State} {c : Word} (h : exec (.cruRead c) s = .next t) :
    s.phase = .run ∧ ∃ r answers n, s.draws ≤ n ∧
      t = { s with cruAnswers := answers, draws := n, trace := s.trace ++ [.cruRd (cruAddress s.params c) r],
                   response := .cru r } := by
  obtain ⟨hp, rfl⟩ := cruAccess_next_iff.mp h
  obtain ⟨answers, n, hn, e⟩ := envCruRead_state (cruAddress s.params c) s
  refine ⟨hp, (envCruRead (cruAddress s.params c) s).1, answers, n, hn, ?_⟩
  simp only [e]
  rfl

theorem exec_cruWrite_cases {s t : State} {c v : Word} (h : exec (.cruWrite c v) s = .next t) :
    s.phase = .run ∧
      t = { s with trace := s.trace ++ [.cruWr (cruAddress s.params c) (cruDatum s.params v.toNat)],
                   response := .nothing } := by
  obtain ⟨hp, rfl⟩ := cruAccess_next_iff.mp h
  exact ⟨hp, rfl⟩

/-- A reset that answers a next state has completed or has overflowed (R100, R106, R107). -/
theorem exec_reset_cases {s t : State} (h : exec .reset s = .next t) :
    sidebandWellFormed s.params s.sideband = true ∧
      ((∃ slots log, mount s.params s.sideband = .mounted slots log ∧ t = resetCompleted slots log s) ∨
        (∃ name log, mount s.params s.sideband = .overflow name log ∧ t = raiseRegistryOverflow name log s)) := by
  simp only [exec, execReset] at h
  split at h
  · rename_i hw
    refine ⟨hw, ?_⟩
    split at h
    · rename_i hm; cases h; exact .inl ⟨_, _, hm, rfl⟩
    · rename_i hm; cases h; exact .inr ⟨_, _, hm, rfl⟩
  · cases h

/-! The address map. -/

theorem isEven_iff (a : Addr) : isEven a = true ↔ a.toNat % 2 = 0 := by
  simp only [isEven, beq_iff_eq]
  rw [BitVec.getLsbD, Nat.testBit_zero]
  simp

theorem oddAddress_toNat {a : Addr} (h : isEven a = true) : (oddAddress a).toNat = a.toNat + 1 := by
  rw [isEven_iff] at h
  simp only [oddAddress, BitVec.toNat_add, BitVec.toNat_ofNat]
  omega

theorem inFastWindow_iff (a : Addr) :
    inFastWindow a = true ↔ (0x2000 ≤ a.toNat ∧ a.toNat ≤ 0x3FFF) ∨ 0xA000 ≤ a.toNat := by
  have := a.isLt
  simp [inFastWindow, Config.fastWindows]
  omega

theorem fastIndex_low {a : Addr} (h1 : 0x2000 ≤ a.toNat) (h2 : a.toNat ≤ 0x3FFF) :
    fastIndex a = (a.toNat - 0x2000) / 2 := by
  simp [fastIndex, Config.fastWindows, windowIndex, h1, h2]

theorem fastIndex_high {a : Addr} (h1 : 0xA000 ≤ a.toNat) : fastIndex a = (a.toNat - 0xA000) / 2 + 0x1000 := by
  have := a.isLt
  simp [fastIndex, Config.fastWindows, windowIndex, h1]
  rw [if_neg (by omega), if_pos (by omega)]
  omega

end Sys2Proof.Machine
end

