-- ==== Sys2Proof/Laws/PerInstr.lean ====
section
/-! SUPPORT. Statements about every instruction as syntax, one lemma per constructor. -/

namespace Sys2Proof

/-- Every field of a word composed by `busReq` (R71), read back. -/
theorem kindField_busReq (k : BitVec 3) (be : BitVec 2) (a : Addr) (v : Word) : kindField (busReq k be a v) = k := by
  apply BitVec.eq_of_toNat_eq
  simp only [kindField, busReq, BitVec.extractLsb'_toNat, BitVec.toNat_append]
  rw [Nat.shiftRight_eq_div_pow, ← Nat.shiftLeft_add_eq_or_of_lt v.isLt, ← Nat.shiftLeft_add_eq_or_of_lt a.isLt,
    ← Nat.shiftLeft_add_eq_or_of_lt be.isLt]
  simp only [Nat.shiftLeft_eq]
  omega

theorem beField_busReq (k : BitVec 3) (be : BitVec 2) (a : Addr) (v : Word) : beField (busReq k be a v) = be := by
  apply BitVec.eq_of_toNat_eq
  simp only [beField, busReq, BitVec.extractLsb'_toNat, BitVec.toNat_append]
  rw [Nat.shiftRight_eq_div_pow, ← Nat.shiftLeft_add_eq_or_of_lt v.isLt, ← Nat.shiftLeft_add_eq_or_of_lt a.isLt,
    ← Nat.shiftLeft_add_eq_or_of_lt be.isLt]
  simp only [Nat.shiftLeft_eq]
  omega

theorem addrField_busReq (k : BitVec 3) (be : BitVec 2) (a : Addr) (v : Word) : addrField (busReq k be a v) = a := by
  apply BitVec.eq_of_toNat_eq
  simp only [addrField, busReq, BitVec.extractLsb'_toNat, BitVec.toNat_append]
  rw [Nat.shiftRight_eq_div_pow, ← Nat.shiftLeft_add_eq_or_of_lt v.isLt, ← Nat.shiftLeft_add_eq_or_of_lt a.isLt,
    ← Nat.shiftLeft_add_eq_or_of_lt be.isLt]
  simp only [Nat.shiftLeft_eq]
  omega

theorem dataField_busReq (k : BitVec 3) (be : BitVec 2) (a : Addr) (v : Word) : dataField (busReq k be a v) = v := by
  apply BitVec.eq_of_toNat_eq
  simp only [dataField, busReq, BitVec.extractLsb'_toNat, BitVec.toNat_append]
  rw [Nat.shiftRight_eq_div_pow, ← Nat.shiftLeft_add_eq_or_of_lt v.isLt, ← Nat.shiftLeft_add_eq_or_of_lt a.isLt,
    ← Nat.shiftLeft_add_eq_or_of_lt be.isLt]
  simp only [Nat.shiftLeft_eq]
  omega

/-- The bits of a word composed by `busReq` (R71). -/
theorem getLsbD_busReq (k : BitVec 3) (be : BitVec 2) (a : Addr) (v : Word) (j : Nat) :
    (busReq k be a v).getLsbD j =
      if j < 16 then v.getLsbD j else if j < 32 then a.getLsbD (j - 16)
      else if j < 34 then be.getLsbD (j - 32) else k.getLsbD (j - 34) := by
  have e : (busReq k be a v).getLsbD j = (k ++ be ++ a ++ v).getLsbD j := rfl
  rw [e, BitVec.getLsbD_append, BitVec.getLsbD_append, BitVec.getLsbD_append]
  have h1 : j - 16 < 16 ↔ j < 32 := by omega
  have h2 : j - (16 + 16) < 2 ↔ j < 34 := by omega
  simp only [h1, Nat.sub_sub, h2]

/-- A word is composed of its four fields (R71). -/
theorem busReq_fields (w : BusReq) : busReq (kindField w) (beField w) (addrField w) (dataField w) = w := by
  apply BitVec.eq_of_getLsbD_eq
  intro j hj
  rw [getLsbD_busReq]
  by_cases h1 : j < 16
  · simp [h1, dataField]
  · by_cases h2 : j < 32
    · simp [h1, h2, addrField, show j - 16 < 16 by omega, show 16 + (j - 16) = j by omega]
    · by_cases h3 : j < 34
      · simp [h1, h2, h3, beField, show j - 32 < 2 by omega, show 32 + (j - 32) = j by omega]
      · simp [h1, h2, h3, kindField, show j - 34 < 3 by omega, show 34 + (j - 34) = j by omega]

/-- The canonical word of a well-formed instruction stands in its row of the opcode table: its bits under the row's mask
are the row's match. -/
def Laws.RowMatch.Statement (i : Instr) : Prop := i.wellFormed = true → encode i &&& rowMask i = rowMatch i

/-- Two words are equal when their 37 bits are. -/
theorem eq_of_bits {x y : BusReq} (h : ∀ j < 37, x.getLsbD j = y.getLsbD j) : x = y := BitVec.eq_of_getLsbD_eq h

theorem Laws.RowMatch.read16 (a : Addr) : Laws.RowMatch.Statement (.read16 a) := by
  intro h
  have h0 : a[0] = false := by simpa [Instr.wellFormed, isEven] using h
  apply eq_of_bits
  intro j hj
  simp only [encode, rowMask, rowMatch, BitVec.getLsbD_and, getLsbD_busReq]
  interval_cases j <;> simp [h0]

theorem Laws.RowMatch.write16Word (a : Addr) (v : Word) : Laws.RowMatch.Statement (.write16Word a v) := by
  intro h
  have h0 : a[0] = false := by simpa [Instr.wellFormed, isEven] using h
  apply eq_of_bits
  intro j hj
  simp only [encode, rowMask, rowMatch, BitVec.getLsbD_and, getLsbD_busReq]
  interval_cases j <;> simp [h0]

theorem Laws.RowMatch.write16HighByteOnly (a : Addr) (v : Word) :
    Laws.RowMatch.Statement (.write16HighByteOnly a v) := by
  intro h
  have h0 : a[0] = false := by simpa [Instr.wellFormed, isEven] using h
  apply eq_of_bits
  intro j hj
  simp only [encode, rowMask, rowMatch, BitVec.getLsbD_and, getLsbD_busReq]
  interval_cases j <;> simp [h0]

theorem Laws.RowMatch.write16LowByteOnly (a : Addr) (v : Word) :
    Laws.RowMatch.Statement (.write16LowByteOnly a v) := by
  intro h
  have h0 : a[0] = false := by simpa [Instr.wellFormed, isEven] using h
  apply eq_of_bits
  intro j hj
  simp only [encode, rowMask, rowMatch, BitVec.getLsbD_and, getLsbD_busReq]
  interval_cases j <;> simp [h0]

theorem Laws.RowMatch.cruRead (c : Word) : Laws.RowMatch.Statement (.cruRead c) := by
  intro _
  apply eq_of_bits
  intro j hj
  simp only [encode, rowMask, rowMatch, BitVec.getLsbD_and, getLsbD_busReq]
  interval_cases j <;> simp

theorem Laws.RowMatch.cruWrite (c v : Word) : Laws.RowMatch.Statement (.cruWrite c v) := by
  intro _
  apply eq_of_bits
  intro j hj
  simp only [encode, rowMask, rowMatch, BitVec.getLsbD_and, getLsbD_busReq]
  interval_cases j <;> simp

theorem Laws.RowMatch.reset : Laws.RowMatch.Statement .reset := by
  intro _
  rfl

end Sys2Proof
end

