-- ==== Sys2Proof/Tests/Slice0.lean ====
section
/-! SUPPORT. The model's own tests: the smoke test of WellFormed, decodings of words written out from the spec, the vectors
of 95_test_vectors.md (at most two an operation), and for each statement with hypotheses a witness that meets them. -/

namespace Sys2Proof.Tests

open Sys2Proof.Machine

/-! ## WellFormed -/

theorem test_read_odd_is_ill_formed : (Instr.read16 0x9001#16).wellFormed = false := by decide
theorem test_word_odd_is_ill_formed : (Instr.write16Word 0x8001#16 0#16).wellFormed = false := by decide
theorem test_high_odd_is_ill_formed : (Instr.write16HighByteOnly 0xFFFF#16 0#16).wellFormed = false := by decide
theorem test_low_odd_is_ill_formed : (Instr.write16LowByteOnly 0x0001#16 0#16).wellFormed = false := by decide
theorem test_even_is_well_formed : (Instr.read16 0xFFFE#16).wellFormed = true := by decide

/-! ## Decoding: words written out from 30_encoding.md rule R71 (kind, be, addr, data) -/

/-- What the decoder gives, errors left out. -/
def decoded (w : BusReq) : Option Instr := decodeTableWord 40 w.toNat

theorem test_decode_read16 :
    decoded (0b000#3 ++ 0b11#2 ++ 0b1001000000000000#16 ++ 0b0000000000000000#16) = some (.read16 0x9000#16) := by decide
theorem test_decode_read16_ignores_be_and_data :
    decoded (0b000#3 ++ 0b00#2 ++ 0b1001000000000000#16 ++ 0b1111000011110000#16) = some (.read16 0x9000#16) := by decide
theorem test_decode_word :
    decoded (0b001#3 ++ 0b11#2 ++ 0b1000000000000000#16 ++ 0b1011111011101111#16) =
      some (.write16Word 0x8000#16 0xBEEF#16) := by decide
theorem test_decode_high :
    decoded (0b001#3 ++ 0b10#2 ++ 0b1000000000000000#16 ++ 0b0101011000000000#16) =
      some (.write16HighByteOnly 0x8000#16 0x5600#16) := by decide
theorem test_decode_low :
    decoded (0b001#3 ++ 0b01#2 ++ 0b1000000000000000#16 ++ 0b0000000001111000#16) =
      some (.write16LowByteOnly 0x8000#16 0x0078#16) := by decide
theorem test_decode_cru_read :
    decoded (0b010#3 ++ 0b11#2 ++ 0b0000000000000011#16 ++ 0b0000000000000000#16) = some (.cruRead 0x0003#16) := by decide
theorem test_decode_cru_write :
    decoded (0b011#3 ++ 0b11#2 ++ 0b0000000000000011#16 ++ 0b0000000000000001#16) =
      some (.cruWrite 0x0003#16 0x0001#16) := by decide
theorem test_decode_reset :
    decoded (0b100#3 ++ 0b11#2 ++ 0b0000000000000000#16 ++ 0b0000000000000000#16) = some .reset := by decide
/-- The reserved words of 95_test_vectors.md. -/
theorem test_decode_reserved :
    [0x1400000000#37, 0x1800000000#37, 0x1C00000000#37, 0x0480001234#37, 0x0390010000#37, 0x0780011234#37].all
      (fun w => decoded w == none) = true := by decide
/-- The canonical words of PG1 and PG2, encoded (R80, R82). -/
theorem test_encode_canonical :
    encode (.read16 0x8000#16) = 0x0380000000#37 ∧ encode (.write16HighByteOnly 0x8000#16 0x5600#16) = 0x0680005600#37 ∧
      encode .reset = 0x1300000000#37 ∧ encode (expandWriteb 0x2001#16 0x77#8) = 0x0520000077#37 := by decide

/-! ## Execution: configuration K1 and start state Z1 of 95_test_vectors.md -/

def addrLowSlot : Descriptor where
  deviceHandle := 0
  addressMask := 0xFF00#16
  selectPattern := 0x9000#16
  writeSelectPattern := 0#16
  readFn := some .addrLow
  writeFn := none

def ram8Slot : Descriptor where
  deviceHandle := 1
  addressMask := 0xFF00#16
  selectPattern := 0x8000#16
  writeSelectPattern := 0#16
  readFn := some .ram8
  writeFn := some .ram8

/-- K1, Z1. -/
def k1 : State := { State.reset with
  registry := fillRegistry [addrLowSlot, ram8Slot], devindex := 2
  latch := 0xAA#8, lowByteCache := 0xBB#8, highByteCache := 0xCC#8, icount := 1000 }

/-- K1 with the bypass on. -/
def k1Fast : State := { k1 with useFastPath := true }

/-- K1 with the cached word 0x1234. -/
def k1Cached : State := { k1 with lowByteCache := 0x34#8, highByteCache := 0x12#8 }

/-- The next state, if there is one. -/
def got (o : Host.Outcome State Fault Refusal) : Option State :=
  match o with
  | .next t => some t
  | .fault _ => none
  | .refused _ => none

/-- One field of the next state. -/
def after {α : Type} (i : Instr) (s : State) (f : State → α) : Option α := (got (exec i s)).map f

/-- V-R1 (the source's P2). -/
theorem test_read16_device :
    after (.read16 0x9000#16) k1 (fun t => (t.response, t.trace, t.latch, t.icount)) =
      some (.word 0x0001#16, [.devRd 0 0x9001#16 0x01#8, .wait 3, .devRd 0 0x9000#16 0x00#8, .wait 3], 0x01#8, 994) := by
  decide

/-- The registry of V-R7. -/
def constThenKeep : State := { k1 with registry := fillRegistry [
  { addrLowSlot with addressMask := 0xF000#16, selectPattern := 0x6000#16, readFn := some (.const 0x11#8) },
  { ram8Slot with selectPattern := 0x6000#16, readFn := some .keep }] }

/-- V-R7: a later slot that keeps `prior` lets the earlier byte stand. -/
theorem test_read16_keep :
    after (.read16 0x6000#16) constThenKeep
      (fun t => (t.response, t.trace)) =
      some (.word 0x1111#16, [.devRd 0 0x6001#16 0x11#8, .devRd 1 0x6001#16 0x11#8, .wait 3,
        .devRd 0 0x6000#16 0x11#8, .devRd 1 0x6000#16 0x11#8, .wait 3]) := by
  decide

/-- V-W1. -/
theorem test_write16_word_device :
    after (.write16Word 0x8000#16 0xBEEF#16) k1 (fun t => (t.trace, t.icount, listed (t.deviceAt 1).mem 0x8000)) =
      some ([.devWr 1 0x8001#16 0xEF#8, .wait 3, .devWr 1 0x8000#16 0xBE#8, .wait 3], 994, some 0xBE#8) := by
  decide

/-- V-W8a (the source's P5). -/
theorem test_write16_word_bypass :
    after (.write16Word 0x2000#16 0xCAFE#16) k1Fast (fun t => (t.trace, t.icount, t.fastWord 0)) =
      some ([.fastWr 0 0xCAFE#16], 1000, 0xCAFE#16) := by
  decide

/-- V-W2x (the source's P4): the operand's low byte is discarded. -/
theorem test_write16_high_device :
    after (.write16HighByteOnly 0x8000#16 0x56FF#16) k1Cached (fun t => (t.trace, t.lowByteCache)) =
      some ([.devWr 1 0x8001#16 0x34#8, .wait 3, .devWr 1 0x8000#16 0x56#8, .wait 3], 0x34#8) := by
  decide

/-- V-W8b. -/
theorem test_write16_high_bypass :
    after (.write16HighByteOnly 0x2002#16 0x9900#16) { k1Cached with useFastPath := true } (fun t => (t.trace, t.fastWord 1)) =
      some ([.fastWr 1 0x9934#16], 0x9934#16) := by
  decide

/-- V-W3. -/
theorem test_write16_low_device :
    after (.write16LowByteOnly 0x8000#16 0x0078#16) k1Cached State.trace =
      some [.devWr 1 0x8001#16 0x78#8, .wait 3, .devWr 1 0x8000#16 0x12#8, .wait 3] := by
  decide

/-- V-C3: the registry is not consulted, although 0x9000 matches ADDRLOW. -/
theorem test_cru_read_bypasses_registry :
    after (.cruRead 0x9000#16) { k1 with cruAnswers := [1, 0] } (fun t => (t.response, t.trace, t.cruAnswers, t.icount)) =
      some (.cru 1, [.cruRd 0x9000 1], [0], 1000) := by
  decide

/-- V-C2. -/
theorem test_cru_write :
    after (.cruWrite 0x0003#16 0x0001#16) k1 (fun t => (t.trace, t.latch, t.icount)) =
      some ([.cruWr 3 1], 0xAA#8, 1000) := by
  decide

/-- A candidate with that name and no condition. -/
def candidate (name : Nat) : Candidate where
  deviceName := name
  addressMask := 0xFF00#16
  selectPattern := 0x9000#16
  writeSelectPattern := 0#16
  readFn := some .addrLow
  writeFn := none
  settingName := 0
  requiredBits := 0
  forbiddenBits := 0

/-- Eleven candidates, and the devices 0 to 10 but for device `gone`. -/
def eleven (gone : Nat) : Sideband where
  candidates := (List.range 11).map candidate
  machineDevices := ((List.range 11).filter (· != gone)).map fun n => (n, n)

/-- V-M4: the third names a missing device, so ten are mounted and one line is logged. -/
theorem test_reset_skips_missing_device :
    after .reset { k1 with sideband := eleven 2 }
      (fun t => (t.devindex, t.phase, (t.slot 2).map Descriptor.deviceHandle, t.log)) =
      some (10, .run, some 3, [⟨.cfgDeviceNotFound, 2⟩]) := by
  decide

/-- V-M3b: the eleventh is named and no access is admitted afterwards. -/
theorem test_reset_overflow :
    after .reset { k1 with sideband := eleven 99 } (fun t => (t.phase, t.response)) =
      some (.neverReset, .registryOverflow 10) := by
  decide

/-! ## Witnesses: states and operands that meet a statement's hypotheses together -/

/-- Even addresses in both windows with the bypass on, and an odd one for `WritebStoresOneLane`. -/
theorem witness_bypass_access :
    isEven 0xA000#16 = true ∧ k1Fast.phase = .run ∧ k1Fast.useFastPath = true ∧ inFastWindow 0xA000#16 = true ∧
      k1Fast.bypass 0xFFFE#16 = true ∧ isEven 0xFFFE#16 = true ∧ inFastWindow 0xFFFF#16 = true := by decide

theorem witness_dispatch_access :
    isEven 0x8000#16 = true ∧ k1.phase = .run ∧ k1.bypass 0x8000#16 = false ∧ k1.params.openBusHigh = .cache := by decide

/-- With the open bus at each of its values. -/
theorem witness_open_bus_zero_and_draw :
    ({ k1 with params := { openBusHigh := .zero } } : State).params.openBusHigh = .zero ∧
      ({ k1 with params := { openBusHigh := .zero } } : State).readSlots 0x4000#16 = [] ∧
      ({ k1 with params := { openBusHigh := .draw } } : State).readSlots 0x4001#16 = [] := by decide

theorem witness_one_reader_per_byte :
    k1.readSlots (oddAddress 0x8000#16) = [1] ∧ k1.readSlots 0x8000#16 = [1] ∧ k1.reader 1 = some (1, .ram8) ∧
      k1.readSlots (oddAddress 0x9000#16) = [0] ∧ k1.reader 0 = some (0, .addrLow) ∧
      isEven 0x9000#16 = true ∧ k1.bypass 0x9000#16 = false := by decide

/-- Two devices, one for each byte. -/
def twoDevices : State := { k1 with registry := fillRegistry [
  { ram8Slot with deviceHandle := 4, addressMask := 0xFFFF#16, selectPattern := 0x7001#16 },
  { ram8Slot with deviceHandle := 5, addressMask := 0xFFFF#16, selectPattern := 0x7000#16 }] }

theorem witness_two_devices :
    isEven 0x7000#16 = true ∧ twoDevices.phase = .run ∧ twoDevices.bypass 0x7000#16 = false ∧
      twoDevices.readSlots (oddAddress 0x7000#16) = [0] ∧ twoDevices.readSlots 0x7000#16 = [1] ∧
      twoDevices.writeSlots (oddAddress 0x7000#16) = [0] ∧ twoDevices.writeSlots 0x7000#16 = [1] ∧
      twoDevices.reader 0 = some (4, .ram8) ∧ twoDevices.reader 1 = some (5, .ram8) ∧
      twoDevices.writer 0 = some (4, .ram8) ∧ twoDevices.writer 1 = some (5, .ram8) := by decide

/-- V-R4 and V-R5: only the odd, only the even byte is answered. -/
theorem witness_half_mapped_reads :
    ({ k1 with registry := fillRegistry [{ ram8Slot with addressMask := 0xFFFF#16, selectPattern := 0x7001#16 }] } :
        State).readSlots 0x7000#16 = [] ∧
      ({ k1 with registry := fillRegistry [{ ram8Slot with addressMask := 0xFFFF#16, selectPattern := 0x7000#16 }] } :
        State).readSlots (oddAddress 0x7000#16) = [] := by decide

theorem witness_unmapped_access :
    isEven 0x4000#16 = true ∧ k1.phase = .run ∧ k1.bypass 0x4000#16 = false ∧ k1.readSlots (oddAddress 0x4000#16) = [] ∧
      k1.readSlots 0x4000#16 = [] ∧ k1.writeSlots (oddAddress 0x4000#16) = [] ∧ k1.writeSlots 0x4000#16 = [] := by decide

theorem witness_ram8_alone :
    isEven 0x8000#16 = true ∧ k1.phase = .run ∧ k1.bypass 0x8000#16 = false ∧
      k1.writeSlots (oddAddress 0x8000#16) = [1] ∧ k1.writeSlots 0x8000#16 = [1] ∧ k1.writer 1 = some (1, .ram8) ∧
      k1.readSlots (oddAddress 0x8000#16) = [1] ∧ k1.readSlots 0x8000#16 = [1] ∧ k1.reader 1 = some (1, .ram8) := by decide

/-- One device that keeps `prior` answers both bytes of 0x8000. -/
def keepOnly : State := { k1 with registry := fillRegistry [{ ram8Slot with readFn := some .keep }], devindex := 1 }

theorem witness_keep_alone :
    isEven 0x8000#16 = true ∧ keepOnly.phase = .run ∧ keepOnly.bypass 0x8000#16 = false ∧
      keepOnly.readSlots (oddAddress 0x8000#16) = [0] ∧ keepOnly.readSlots 0x8000#16 = [0] ∧
      keepOnly.reader 0 = some (1, .keep) := by
  decide

theorem witness_all_return_prior :
    returnsPrior .keep ∧ keepOnly.allReturnPrior (keepOnly.readSlots 0x8000#16) ∧
      keepOnly.allReturnPrior (keepOnly.readSlots (oddAddress 0x8000#16)) := by
  have hk : returnsPrior .keep := fun _ _ _ _ _ => rfl
  have h : keepOnly.allReturnPrior [0] := by
    intro i hi h f hr
    obtain rfl := List.mem_singleton.mp hi
    have e : keepOnly.reader 0 = some (1, .keep) := witness_keep_alone.2.2.2.2.2
    rw [e] at hr
    cases hr
    exact hk
  exact ⟨hk, h, h⟩

/-- Several slots answer one byte, the last returning `prior` (V-R7): the clauses of `KeepingHandlerLetsTheOldByteStand`
on the last slot, and the many-slot case of `ReadReturnsTheHandlersBytes`. -/
theorem witness_several_readers :
    isEven 0x6000#16 = true ∧ constThenKeep.phase = .run ∧ constThenKeep.bypass 0x6000#16 = false ∧
      constThenKeep.readSlots (oddAddress 0x6000#16) = [0] ++ [1] ∧ constThenKeep.readSlots 0x6000#16 = [0] ++ [1] ∧
      constThenKeep.reader 1 = some (1, .keep) := by decide

/-- Several slots accept one byte (V-W9), and one byte only (R152 e). -/
theorem witness_several_and_half_writers :
    (let s : State := { k1 with registry := fillRegistry [
        { ram8Slot with addressMask := 0xF000#16, selectPattern := 0x6000#16 },
        { ram8Slot with deviceHandle := 2, selectPattern := 0x6000#16 }] }
     s.phase = .run ∧ s.bypass 0x6000#16 = false ∧ s.writeSlots 0x6000#16 = [0, 1] ∧
       s.writeSlots (oddAddress 0x6000#16) = [0, 1]) ∧
      (let s : State := { k1 with registry := fillRegistry [
        { ram8Slot with addressMask := 0xFFFF#16, selectPattern := 0x7001#16 }] }
       s.phase = .run ∧ s.bypass 0x7000#16 = false ∧ s.writeSlots 0x7000#16 = [] ∧
         s.writeSlots (oddAddress 0x7000#16) = [0]) := by decide

theorem witness_even_bounds : isEven 0x0000#16 = true ∧ isEven 0xFFFE#16 = true ∧ isEven 0xFFFF#16 = false := by decide

/-- `exec` answers a next state, for every operation; a read is followed by a byte write on the dispatch path. -/
theorem witness_exec_next :
    (∃ t, exec (.read16 0x9000#16) k1 = .next t ∧ isEven 0x8010#16 = true ∧ t.bypass 0x8010#16 = false) ∧
      (∃ t, exec (write16Form .word 0x8000#16 0xBEEF#16) k1 = .next t) ∧
      (∃ t, exec (write16Form .highByteOnly 0x8000#16 0x5600#16) k1 = .next t) ∧
      (∃ t, exec (write16Form .lowByteOnly 0x8000#16 0x0078#16) k1 = .next t) ∧
      (∃ t, exec (.cruRead 0x0003#16) k1 = .next t) ∧ (∃ t, exec (.cruWrite 0x0003#16 0x0001#16) k1 = .next t) ∧
      ∃ t, exec .reset k1 = .next t ∧ t.phase = .run :=
  ⟨⟨_, rfl, rfl, rfl⟩, ⟨_, rfl⟩, ⟨_, rfl⟩, ⟨_, rfl⟩, ⟨_, rfl⟩, ⟨_, rfl⟩, ⟨_, rfl, rfl⟩⟩

/-- A read followed by a byte write into a window (the second clause of `ByteWriteMergesTheLastWordRead`). -/
theorem witness_byte_write_into_window :
    isEven 0x2002#16 = true ∧ ∃ t, exec (.read16 0x9000#16) k1Fast = .next t ∧ t.bypass 0x2002#16 = true :=
  ⟨by decide, _, rfl, rfl⟩

/-- An access in a window with the bypass on answers a next state (for `WindowsShadowTheRegistry`), and a write there
changes a byte (for `OnlyBypassWritesChangeTheBuffer`). -/
theorem witness_bypass_exec_next :
    (∃ t, exec (.read16 0x2000#16) k1Fast = .next t) ∧
      ∃ t, exec (write16Form .word 0x3FFE#16 0xCAFE#16)
          { k1Fast with fastRam := [(0x1FFE, 0x11#8), (0x1FFF, 0x22#8)] } = .next t ∧
        t.fastByte 0x1FFE ≠
          ({ k1Fast with fastRam := [(0x1FFE, 0x11#8), (0x1FFF, 0x22#8)] } : State).fastByte 0x1FFE :=
  ⟨⟨_, rfl⟩, _, rfl, by decide⟩

/-- A device no answering slot holds: handle 0 for an access at 0x8000, handle 1 for a read at 0x9000. -/
theorem witness_other_device :
    (k1.readSlots (oddAddress 0x8000#16) ++ k1.readSlots 0x8000#16).all (fun i => (k1.reader i).map Prod.fst != some 0) = true ∧
      (k1.writeSlots (oddAddress 0x8000#16) ++ k1.writeSlots 0x8000#16).all
        (fun i => (k1.writer i).map Prod.fst != some 0) = true := by decide

/-- K1 about to be reset with the eleven candidates, under the overflow policy `policy`. -/
def resetting (gone : Nat) (policy : OverflowPolicy) : State :=
  { k1 with sideband := eleven gone, params := { overflowPolicy := policy } }

/-- A reset that fits with exactly ten candidates mounted, and an overflow under each policy. -/
theorem witness_reset_operands :
    (sidebandWellFormed (resetting 2 .refuse).params (resetting 2 .refuse).sideband = true ∧
        (mountable (resetting 2 .refuse).params (resetting 2 .refuse).sideband).length = 10) ∧
      (sidebandWellFormed (resetting 99 .refuse).params (resetting 99 .refuse).sideband = true ∧
        (resetting 99 .refuse).params.overflowPolicy = .refuse ∧
        10 < (mountable (resetting 99 .refuse).params (resetting 99 .refuse).sideband).length) ∧
      sidebandWellFormed (resetting 99 .drop).params (resetting 99 .drop).sideband = true ∧
        (resetting 99 .drop).params.overflowPolicy = .drop ∧
        10 < (mountable (resetting 99 .drop).params (resetting 99 .drop).sideband).length := by decide

/-- V-M3c: under `drop` the eleventh is logged. -/
theorem witness_drop_lines : dropLines (resetting 99 .drop).params (resetting 99 .drop).sideband = [⟨.registryOverflow, 10⟩] := by
  decide

/-- An empty candidate list with the flag off (for `ResetStateIsAnEmptyMount`). -/
theorem witness_empty_operands : k1.sideband.candidates = [] ∧ k1.sideband.fastFlag = false := by decide

/-- Two states with the same operands and different registries (for `RemountForgetsTheOldRegistry`). -/
theorem witness_remount :
    ∃ t, exec .reset (resetting 2 .refuse) = .next t ∧ t.phase = .run ∧
      ({ resetting 2 .refuse with registry := fillRegistry [addrLowSlot] } : State).params = (resetting 2 .refuse).params ∧
      ({ resetting 2 .refuse with registry := fillRegistry [addrLowSlot] } : State).sideband =
        (resetting 2 .refuse).sideband :=
  ⟨_, rfl, rfl, rfl, rfl⟩

/-- The run phase is left by an overflow. -/
theorem witness_overflow_leaves_run :
    ∃ t, exec .reset { k1 with sideband := eleven 99 } = .next t ∧ k1.phase = .run ∧ t.phase = .neverReset :=
  ⟨_, rfl, rfl, rfl⟩

/-- Each ground of an ill-formed reset (V-M5, V-M6). -/
theorem witness_ill_formed_operands :
    (let c : Candidate := { candidate 0 with readFn := none }
     let s : State := { k1 with sideband := { candidates := [c] } }
     s.sideband.candidates.contains c = true ∧ c.readFn = none ∧ c.writeFn = none) ∧
      (let c : Candidate := { candidate 0 with requiredBits := 1 }
       let s : State := { k1 with sideband := { candidates := [c] } }
       s.sideband.candidates.contains c = true ∧ unconditional s.params c = false ∧
         lookupName s.sideband.runtimeConfig c.settingName = none) := by
  decide

/-- The presence vectors V-M2a to V-M2f: value 1 present, 3 and 0 not, 5 present, no condition present, a bit in both masks
never. -/
theorem witness_presence :
    ([1, 3, 0, 5].map fun v => present {} [(7, v)] { candidate 0 with settingName := 7, requiredBits := 1, forbiddenBits := 2 }) =
        [true, false, false, true] ∧
      present {} [] (candidate 0) = true ∧
      present {} [(7, 1)] { candidate 0 with settingName := 7, requiredBits := 1, forbiddenBits := 1 } = false ∧
      cfgBits {} (candidate 0).requiredBits = 0 ∧ (cfgBits {} 1).getLsbD 0 = true ∧ (cfgBits {} 0x8000).getLsbD 15 = true := by
  decide

theorem witness_never_reset :
    ({ k1 with phase := .neverReset } : State).phase = .neverReset ∧ (Instr.cruRead 0x9001#16).wellFormed = true ∧
      (Instr.read16 0x9000#16).wellFormed = true ∧ Instr.cruRead 0x9001#16 ≠ .reset := by decide

/-- Words that differ only in ignored fields, one pair for each clause of `IgnoredFieldsHaveNoEffect`. -/
theorem witness_ignored_fields :
    kindField 0x0390000000#37 = kindField 0x009000FFFF#37 ∧ kindField 0x0390000000#37 = 0#3 ∧
      addrField 0x0390000000#37 = addrField 0x009000FFFF#37 ∧
      kindField 0x0B00030000#37 = 2#3 ∧ addrField 0x0B00030000#37 = addrField 0x080003FFFF#37 ∧
      kindField 0x080003FFFF#37 = 2#3 ∧
      kindField 0x0F00030001#37 = 3#3 ∧ kindField 0x0C00030001#37 = 3#3 ∧
      dataField 0x0F00030001#37 = dataField 0x0C00030001#37 ∧ addrField 0x0F00030001#37 = addrField 0x0C00030001#37 ∧
      kindField 0x1300000000#37 = 4#3 ∧ kindField 0x10FFFF1234#37 = 4#3 := by decide

/-- Reserved words on each boundary of R79, and the neighbours that decode. -/
theorem witness_reserved_boundaries :
    (kindField 0x1400000000#37).toNat = 5 ∧ (kindField 0x1300000000#37).toNat = 4 ∧
      (kindField 0x0480001234#37 = 1#3 ∧ beField 0x0480001234#37 = 0#2) ∧ beField 0x0580000078#37 = 1#2 ∧
      ((kindField 0x0780011234#37).toNat ≤ 1 ∧ BitVec.getLsbD 0x0780011234#37 16 = true) ∧
      ((kindField 0x0B00030000#37).toNat = 2 ∧ BitVec.getLsbD 0x0B00030000#37 16 = true) := by decide

theorem witness_decoded_word : decode 0x0390000000#37 = .ok (.read16 0x9000#16) := by rfl

/-- A queue with a request for each clause of `StepRunsTheDecodedRequest`, and an empty one. -/
theorem witness_requests :
    ({ k1 with requests := [⟨0x0390000000#37, {}⟩] } : State).requests = ⟨0x0390000000#37, {}⟩ :: [] ∧
      decode 0x0390000000#37 = .ok (.read16 0x9000#16) ∧ decode 0x1400000000#37 = .error .reservedKind ∧
      decode 0x0480001234#37 = .error .noByteEnabled ∧ decode 0x0390010000#37 = .error .oddAddress ∧ k1.requests = [] :=
  ⟨rfl, rfl, rfl, rfl, rfl, rfl⟩

/-- A state that meets the invariant with a filled registry and a written buffer, and steps. -/
def k1Written : State := { k1Fast with
  fastRam := [(0, 0xCA#8), (1, 0xFE#8)], devices := [(1, { mem := [(0x8000, 0x12#8), (0x8001, 0x34#8)] })]
  requests := [⟨0x0380000000#37, {}⟩] }

theorem witness_invariant : k1Written.Inv ∧ ∃ t, step k1Written = .next t :=
  ⟨⟨by decide, by decide, by decide, by decide, by decide, by decide⟩, _, rfl⟩

/-- A run of a dispatched access, a bypass access and a CRU operation: one of the three is charged. -/
theorem witness_run :
    ∃ t, runAll [.read16 0x9000#16, .write16Word 0x2000#16 0xCAFE#16, .cruWrite 3#16 1#16] k1Fast 0 = .next (t, 1) :=
  ⟨_, rfl⟩

/-- The window boundaries of 95_test_vectors.md. -/
theorem witness_window_boundaries :
    ([0x1FFF, 0x2000, 0x3FFF, 0x4000, 0x9FFF, 0xA000, 0xC000, 0xFFFF].map fun n => inFastWindow (BitVec.ofNat 16 n)) =
        [false, true, true, false, false, true, true, true] ∧
      ([0x2000, 0x3FFE, 0xA000, 0xBFFE, 0xC000, 0xFFFE].map fun n => fastIndex (BitVec.ofNat 16 n)) =
        [0x0000, 0x0FFF, 0x1000, 0x1FFF, 0x2000, 0x3FFF] := by decide

/-- Descriptors for the clauses of `PatternsAndMasks`, and V-W7 and V-W11 (R151). -/
theorem witness_patterns :
    ({ ram8Slot with selectPattern := 0x8001#16 } : Descriptor).selectPattern &&& ~~~ram8Slot.addressMask ≠ 0#16 ∧
      (ram8Slot.selectPattern ||| 0x0001#16) &&& ~~~ram8Slot.addressMask ≠ 0#16 ∧
      ram8Slot.readFn ≠ none ∧ ram8Slot.writeFn ≠ none ∧ ram8Slot.writeSelectPattern = 0#16 ∧
      ({ ram8Slot with addressMask := 0#16, selectPattern := 0#16 } : Descriptor).addressMask = 0#16 ∧
      addrLowSlot.writeFn = none ∧ ({ ram8Slot with readFn := none } : Descriptor).readFn = none ∧
      (let d := { ram8Slot with addressMask := 0xFC00#16, selectPattern := 0x8800#16, writeSelectPattern := 0x0400#16 }
       d.selectPattern ||| d.writeSelectPattern ≠ d.selectPattern ∧ readMatches (some d) 0x8800#16 = true ∧
         writeMatches (some d) 0x8800#16 = false ∧ writeMatches (some d) 0x8C00#16 = true) := by decide

/-- K1 is disjoint (S1), shown by the two patterns differing in a bit of both masks. -/
theorem witness_overlap_criterion :
    (addrLowSlot.selectPattern ^^^ ram8Slot.selectPattern) &&& (addrLowSlot.addressMask &&& ram8Slot.addressMask) ≠ 0#16 ∧
      addrLowSlot.readFn ≠ none ∧ ram8Slot.readFn ≠ none := by decide

/-- The empty registry is `Disjoint`, and an access to it goes on. -/
theorem witness_disjoint : State.reset.Disjoint ∧ ∃ t, exec (.read16 0x8000#16) State.reset = .next t :=
  ⟨fun a =>
    have hr : State.reset.readSlots a = [] := rfl
    have hw : State.reset.writeSlots a = [] := rfl
    ⟨by rw [hr]; decide, by rw [hw]; decide⟩, _, rfl⟩

end Sys2Proof.Tests
end

/-! PROOFS of the family 10_state.md: what `exec` can do, said once (`Served`), the frame of each operation, the events it
appends, and the statements about the state and the registry. -/

namespace Sys2Proof.Machine

/-! ## What a served operation is -/

/-- Every way `exec` can answer a next state: one constructor per operation and path (R120, R140, R160, R161, R100). -/
inductive Served (s : State) : Instr → State → Prop where
  | bypassRead {a : Addr} (hb : s.bypass a = true) : Served s (.read16 a) (readBypass a s)
  | dispatchRead {a : Addr} (he : isEven a = true) : Served s (.read16 a) (readDispatch a s)
  | bypassWrite {mask : ByteMask} {a : Addr} {v w : Word} (hb : s.bypass a = true) :
      Served s (write16Form mask a v) (writeBypass a w s)
  | dispatchWrite {mask : ByteMask} {a : Addr} {v w : Word} (he : isEven a = true) :
      Served s (write16Form mask a v) (writeDispatch a w s)
  | cruRead {c : Word} {r n : Nat} {answers : List Nat} (hn : s.draws ≤ n) :
      Served s (.cruRead c) { s with cruAnswers := answers, draws := n, response := .cru r
                                     trace := s.trace ++ [.cruRd (cruAddress s.params c) r] }
  | cruWrite {c v : Word} {x : Nat} :
      Served s (.cruWrite c v) { s with response := .nothing, trace := s.trace ++ [.cruWr (cruAddress s.params c) x] }
  | resetCompletes {slots : List Descriptor} {log : List LogLine} : Served s .reset (resetCompleted slots log s)
  | resetOverflows {name : Nat} {log : List LogLine} : Served s .reset (raiseRegistryOverflow name log s)

theorem served_of_exec {s t : State} {i : Instr} (h : exec i s = .next t) : Served s i t := by
  obtain ⟨a, rfl⟩ | ⟨mask, a, v, rfl⟩ | ⟨c, rfl⟩ | ⟨c, v, rfl⟩ | rfl := instr_cases i
  · obtain ⟨he, -, ⟨hb, rfl⟩ | ⟨-, rfl⟩⟩ := exec_read16_cases h
    · exact .bypassRead hb
    · exact .dispatchRead he
  · obtain ⟨he, -, ⟨hb, rfl⟩ | ⟨-, rfl⟩⟩ := exec_write16_cases h
    · exact .bypassWrite hb
    · exact .dispatchWrite he
  · obtain ⟨-, r, answers, n, hn, rfl⟩ := exec_cruRead_cases h
    exact .cruRead hn
  · obtain ⟨-, rfl⟩ := exec_cruWrite_cases h
    exact .cruWrite
  · obtain ⟨-, ⟨slots, log, -, rfl⟩ | ⟨name, log, -, rfl⟩⟩ := exec_reset_cases h
    · exact .resetCompletes
    · exact .resetOverflows

/-! ## The frame of every operation but `reset` -/

/-- `t` agrees with `s` in the fields that only a reset or the CPU side writes (R23, R180). -/
structure SameConfiguration (s t : State) : Prop where
  registry : t.registry = s.registry
  devindex : t.devindex = s.devindex
  useFastPath : t.useFastPath = s.useFastPath
  phase : t.phase = s.phase
  sideband : t.sideband = s.sideband
  requests : t.requests = s.requests
  log : t.log = s.log
  params : t.params = s.params
  ramEpoch : t.ramEpoch = s.ramEpoch

theorem SameConfiguration.eq {s t : State} (h : SameConfiguration s t) :
    t = { s with latch := t.latch, lowByteCache := t.lowByteCache, highByteCache := t.highByteCache, fastRam := t.fastRam,
                 icount := t.icount, devices := t.devices, cruAnswers := t.cruAnswers, trace := t.trace,
                 response := t.response, draws := t.draws } :=
  State.ext h.registry h.devindex rfl rfl rfl h.useFastPath rfl h.phase rfl rfl h.sideband rfl h.requests rfl rfl h.log
    h.params h.ramEpoch rfl

theorem SameConfiguration.of_sameBlock {s u t : State} (hu : SameConfiguration s u) (h : SameBlock u t) :
    SameConfiguration s t where
  registry := h.registry.trans hu.registry
  devindex := h.devindex.trans hu.devindex
  useFastPath := h.useFastPath.trans hu.useFastPath
  phase := h.phase.trans hu.phase
  sideband := h.sideband.trans hu.sideband
  requests := h.requests.trans hu.requests
  log := h.log.trans hu.log
  params := h.params.trans hu.params
  ramEpoch := h.ramEpoch.trans hu.ramEpoch

theorem Served.sameConfiguration {s t : State} {i : Instr} (h : Served s i t) (hi : i ≠ .reset) :
    SameConfiguration s t := by
  cases h with
  | bypassRead | bypassWrite | cruRead | cruWrite => constructor <;> rfl
  | dispatchRead => exact .of_sameBlock (by constructor <;> rfl) (readDispatch_frame _ s).1
  | dispatchWrite => exact .of_sameBlock (by constructor <;> rfl) (writeDispatch_spec _ _ s).1
  | resetCompletes | resetOverflows => exact absurd rfl hi

/-- Settles O43: each operation but `reset` leaves the configuration. -/
theorem onlyResetWritesTheRegistry : Obligations.OnlyResetWritesTheRegistry :=
  fun _ _ _ hi h => ((served_of_exec h).sameConfiguration hi).eq

/-- Settles O44: the writes and the CRU operations touch neither `latch` nor a cache. -/
theorem onlyReadsWriteLatchAndCaches : Obligations.OnlyReadsWriteLatchAndCaches := by
  intro s t i h
  cases served_of_exec h with
  | bypassRead | dispatchRead => exact .inl ⟨_, rfl⟩
  | bypassWrite | cruRead | cruWrite => exact .inr (.inr ⟨rfl, rfl, rfl⟩)
  | @dispatchWrite _ a _ w =>
    have hb := (writeDispatch_spec a w s).1
    exact .inr (.inr ⟨hb.latch, hb.lowByteCache, hb.highByteCache⟩)
  | resetCompletes | resetOverflows => exact .inr (.inl rfl)

/-- Settles O7: on either path the response is composed of the bytes that go into the caches. -/
theorem cachesHoldTheLastWordRead : Obligations.CachesHoldTheLastWordRead := by
  intro s t a h
  obtain ⟨-, -, ⟨-, rfl⟩ | ⟨-, rfl⟩⟩ := exec_read16_cases h
  · exact ⟨s.fastWord (fastIndex a), rfl, rfl, rfl⟩
  · obtain ⟨_, _, _, -, -, -, -, -, -, hlow, -, hresponse⟩ := readDispatch_reads a s
    exact ⟨_, hresponse, by simp [hlow], by simp⟩

/-! ## The bypass buffer -/

theorem bypass_iff (s : State) (a : Addr) : s.bypass a = true ↔ s.useFastPath = true ∧ inFastWindow a = true := by
  simp [State.bypass]

/-- A window address names a word of the buffer (R17, R48). -/
theorem fastIndex_lt {a : Addr} (h : inFastWindow a = true) : fastIndex a < Config.fastRamWords := by
  have := a.isLt
  unfold Config.fastRamWords
  obtain ⟨h1, h2⟩ | h1 := (inFastWindow_iff a).mp h
  · rw [fastIndex_low h1 h2]; omega
  · rw [fastIndex_high h1]; omega

/-- An operation but `reset` leaves `fast_ram`, or is a write on the bypass path, which sets the word of its address
(R147). -/
theorem Served.fastRam {s t : State} {i : Instr} (h : Served s i t) (hi : i ≠ .reset) :
    t.fastRam = s.fastRam ∨
      ∃ mask a v w, i = write16Form mask a v ∧ s.bypass a = true ∧
        t.fastRam = (s.setFastWord (fastIndex a) w).fastRam := by
  cases h with
  | bypassRead | cruRead | cruWrite => exact .inl rfl
  | dispatchRead => exact .inl (readDispatch_frame _ s).1.fastRam
  | bypassWrite hb => exact .inr ⟨_, _, _, _, rfl, hb, rfl⟩
  | dispatchWrite => exact .inl (writeDispatch_spec _ _ s).1.fastRam
  | resetCompletes | resetOverflows => exact absurd rfl hi

theorem fastByte_congr {s t : State} (hr : t.fastRam = s.fastRam) (he : t.ramEpoch = s.ramEpoch) (k : Nat) :
    t.fastByte k = s.fastByte k := by
  simp only [State.fastByte, hr, he]

/-- Settles O45: only a bypass write sets a word of the buffer, and it changes the two bytes of that word. -/
theorem onlyBypassWritesChangeTheBuffer : Obligations.OnlyBypassWritesChangeTheBuffer := by
  intro s t i k h hi hk
  have hepoch : t.ramEpoch = s.ramEpoch := ((served_of_exec h).sameConfiguration hi).ramEpoch
  obtain hram | ⟨mask, a, v, w, rfl, hb, hram⟩ := (served_of_exec h).fastRam hi
  · exact absurd (fastByte_congr hram hepoch k) hk
  · obtain ⟨hfast, hwindow⟩ := (bypass_iff s a).mp hb
    refine ⟨mask, a, v, rfl, hfast, hwindow, ?_⟩
    by_contra hne
    refine hk ?_
    rw [fastByte_congr (s := s.setFastWord (fastIndex a) w) hram hepoch, fastByte_setFastWord, if_neg (by omega),
      if_neg (by omega)]

/-! ## The invariant -/

theorem Served.keepsDevices {s t : State} {i : Instr} (h : Served s i t) : KeepsDevices s t := by
  cases h with
  | bypassRead | bypassWrite | cruWrite => exact ⟨id, id, Nat.le_refl _⟩
  | dispatchRead => exact (readDispatch_frame _ s).2
  | dispatchWrite => exact (writeDispatch_spec _ _ s).2.1
  | cruRead hn => exact ⟨id, id, hn⟩
  | resetCompletes | resetOverflows => exact ⟨id, id, Nat.le_succ _⟩

/-- A registry filled from descriptors that have a handler each is gapless (R21, R22). -/
theorem slotsWf_resetCompleted (s : State) (slots : List Descriptor) (log : List LogLine)
    (hw : slots.all descriptorWf = true) : (resetCompleted slots log s).slotsWf = true := by
  refine List.all_eq_true.mpr fun i hi => ?_
  have hslot : (resetCompleted slots log s).slot i = slots[i]? := fillRegistry_slot slots (List.mem_range.mp hi)
  rw [hslot, show (resetCompleted slots log s).devindex = slots.length from rfl]
  cases hd : slots[i]? with
  | none => simpa [slotWf] using hd
  | some d =>
    obtain ⟨hlt, rfl⟩ := List.getElem?_eq_some_iff.mp hd
    simp [slotWf, hlt, List.all_eq_true.mp hw _ (List.getElem_mem hlt)]

/-- Well-formed operands mount at most ten descriptors, with a handler each (R18, R107). -/
theorem mount_mounted {p : Params} {sb : Sideband} (hw : sidebandWellFormed p sb = true) {slots : List Descriptor}
    {log : List LogLine} (hm : mount p sb = .mounted slots log) :
    slots.length ≤ Config.maxDev ∧ slots.all descriptorWf = true := by
  refine mountFrom_mounted p sb sb.candidates [] [] (Nat.zero_le _) rfl ?_ hm
  refine List.all_eq_true.mpr fun c hc => ?_
  have hcand : candidateWellFormed p sb.runtimeConfig c = true := List.all_eq_true.mp hw c hc
  exact (Bool.and_eq_true_iff.mp hcand).1

/-- An operation but `reset` keeps the invariant: it leaves the registry, and writes the buffer within its words. -/
theorem Served.inv_of_access {s t : State} {i : Instr} (h : Served s i t) (hi : i ≠ .reset) (hs : s.Inv) : t.Inv := by
  have hc := h.sameConfiguration hi
  have hk := h.keepsDevices
  have hslots : t.slotsWf = s.slotsWf := by simp only [State.slotsWf, State.slot, hc.registry, hc.devindex]
  refine ⟨?_, hk.keys hs.deviceKeys, hk.mems hs.deviceMems, hc.devindex ▸ hs.devindex, ?_, ?_⟩
  · obtain hram | ⟨mask, a, v, w, -, hb, hram⟩ := h.fastRam hi
    · exact hram ▸ hs.fastRam
    · exact hram ▸ wf_setFastWord w (fastIndex_lt ((bypass_iff s a).mp hb).2) hs.fastRam
  · exact fun hp => hslots ▸ hs.slots (hc.phase ▸ hp)
  · exact hc.ramEpoch ▸ Nat.lt_of_lt_of_le hs.epoch hk.draws

theorem inv_resetCompleted {s : State} (hs : s.Inv) {slots : List Descriptor} {log : List LogLine}
    (hw : sidebandWellFormed s.params s.sideband = true) (hm : mount s.params s.sideband = .mounted slots log) :
    (resetCompleted slots log s).Inv := by
  obtain ⟨hlength, hdescriptors⟩ := mount_mounted hw hm
  exact ⟨wf_nil _, hs.deviceKeys, hs.deviceMems, hlength, fun _ => slotsWf_resetCompleted s slots log hdescriptors,
    Nat.lt_succ_self _⟩

/-- After a failed reset no access is admitted, and the unspecified registry may have gaps (R31, R32). -/
theorem inv_raiseRegistryOverflow {s : State} (hs : s.Inv) (name : Nat) (log : List LogLine) :
    (raiseRegistryOverflow name log s).Inv where
  fastRam := wf_nil _
  deviceKeys := hs.deviceKeys
  deviceMems := hs.deviceMems
  devindex := Nat.lt_succ_iff.mp (Config.devindexUnspecified s.draws).isLt
  slots := nofun
  epoch := Nat.lt_succ_self _

theorem inv_of_exec {s t : State} {i : Instr} (hs : s.Inv) (h : exec i s = .next t) : t.Inv := by
  by_cases hi : i = .reset
  · subst hi
    obtain ⟨hw, ⟨slots, log, hm, rfl⟩ | ⟨name, log, -, rfl⟩⟩ := exec_reset_cases h
    · exact inv_resetCompleted hs hw hm
    · exact inv_raiseRegistryOverflow hs name log
  · exact (served_of_exec h).inv_of_access hi hs

/-- What comes with a request is no part of the invariant (R28). -/
theorem inv_of_fetch {s s' : State} {w : BusReq} (hs : s.Inv) (h : s.fetch = some (w, s')) : s'.Inv := by
  unfold State.fetch at h
  split at h
  · cases h
  · cases h
    exact ⟨hs.fastRam, hs.deviceKeys, hs.deviceMems, hs.devindex, hs.slots, hs.epoch⟩

/-- A step that answers a next state is idle or is `exec` of a decoded request (R53, R201). -/
theorem step_cases {s t : State} (h : step s = .next t) :
    t = s ∨ ∃ w s' i, s.fetch = some (w, s') ∧ decode w = .ok i ∧ exec i s' = .next t := by
  unfold step at h
  split at h
  · cases h; exact .inl rfl
  · next w s' hf =>
    split at h
    · next i hd => exact .inr ⟨w, s', i, hf, hd, h⟩
    · cases h

/-- Settles O40: fetching keeps the invariant, and so does every served operation. -/
theorem stepKeepsTheInvariant : Obligations.StepKeepsTheInvariant := by
  intro s t hs h
  obtain rfl | ⟨w, s', i, hf, -, he⟩ := step_cases h
  · exact hs
  · exact inv_of_exec (inv_of_fetch hs hf) he

/-- Settles O41: the tables are empty, every slot is empty, and one draw is spent. -/
theorem resetMeetsTheInvariant : Obligations.ResetMeetsTheInvariant where
  fastRam := rfl
  deviceKeys := rfl
  deviceMems := rfl
  devindex := Nat.zero_le _
  slots := fun _ => rfl
  epoch := Nat.zero_lt_one

/-- Settles O31: an access passes its check of the address and stops at the check of the phase. -/
theorem noAccessBeforeReset : Obligations.NoAccessBeforeReset := by
  intro s i hp hw hi
  have hadmits : s.admitsAccess = false := by simp [State.admitsAccess, hp]
  have hword : ∀ a next, isEven a = true → wordAccess a s next = .refused .notReset :=
    fun a next he => by simp [wordAccess, he, hadmits]
  have hcru : ∀ next, cruAccess s next = .refused .notReset := fun next => by simp [cruAccess, hadmits]
  cases i with
  | read16 a => exact hword a _ hw
  | write16Word a v => exact hword a _ hw
  | write16HighByteOnly a v => exact hword a _ hw
  | write16LowByteOnly a v => exact hword a _ hw
  | cruRead c => exact hcru _
  | cruWrite c v => exact hcru _
  | reset => exact absurd rfl hi

/-! ## The events an operation appends -/

@[simp] theorem deviceAddress_wait (n : Nat) : (Event.wait n).deviceAddress = none := rfl

/-- The events of an access on the dispatch path at `a`: the calls `low` at the odd address, 3 cycles, the calls `high` at
the even address, 3 cycles (R54, R124). -/
structure DispatchEvents (a : Addr) (low high events : List Event) : Prop where
  events_eq : events = low ++ [.wait 3] ++ high ++ [.wait 3]
  low_address : ∀ e ∈ low, e.deviceAddress = some (oddAddress a)
  high_address : ∀ e ∈ high, e.deviceAddress = some a

theorem readDispatch_events (a : Addr) (s : State) :
    ∃ low high events, DispatchEvents a low high events ∧ (readDispatch a s).trace = s.trace ++ events ∧
      low.length = (s.readSlots (oddAddress a)).length ∧ high.length = (s.readSlots a).length := by
  obtain ⟨low, high, _, hlow, hhigh, htrace, -⟩ := readDispatch_reads a s
  refine ⟨low.map fun r => .devRd r.1 (oddAddress a) r.2, high.map fun r => .devRd r.1 a r.2, _,
    ⟨rfl, List.forall_mem_map.mpr fun _ _ => rfl, List.forall_mem_map.mpr fun _ _ => rfl⟩, ?_, ?_, ?_⟩
  · simpa using htrace
  · simp [← hlow]
  · simp [← hhigh]

theorem writeDispatch_events (a : Addr) (w : Word) (s : State) :
    ∃ low high events, DispatchEvents a low high events ∧ (writeDispatch a w s).trace = s.trace ++ events ∧
      low.length = (s.writeSlots (oddAddress a)).length ∧ high.length = (s.writeSlots a).length := by
  have htrace := (writeDispatch_spec a w s).2.2
  refine ⟨(s.writeSlots (oddAddress a)).map fun i => .devWr i (oddAddress a) (lowByte w),
    (s.writeSlots a).map fun i => .devWr i a (highByte w), _,
    ⟨rfl, List.forall_mem_map.mpr fun _ _ => rfl, List.forall_mem_map.mpr fun _ _ => rfl⟩, ?_, ?_, ?_⟩
  · simpa using htrace
  · simp
  · simp

/-- No event is a call of a device or costs a cycle: what every operation but a dispatched access appends. -/
def Quiet (events : List Event) : Prop := ∀ e ∈ events, e.deviceAddress = none ∧ e.cycles = 0

theorem quiet_singleton {e : Event} (ha : e.deviceAddress = none) (hc : e.cycles = 0) : Quiet [e] :=
  fun _ hx => List.mem_singleton.mp hx ▸ ⟨ha, hc⟩

/-- The events every operation appends (R26): a dispatched access those of its two dispatches, of as many calls as slots
answer each byte, and 6 cycles leave `icount`; any other operation calls no device and charges nothing. -/
theorem Served.events {s t : State} {i : Instr} (h : Served s i t) :
    ∃ events, t.trace = s.trace ++ events ∧
      ((Quiet events ∧ t.icount = s.icount) ∨
        ∃ a low high, isEven a = true ∧ DispatchEvents a low high events ∧ t.icount = s.icount - 6 ∧
          (s.Disjoint → low.length ≤ 1 ∧ high.length ≤ 1)) := by
  cases h with
  | bypassRead | bypassWrite | cruRead | cruWrite => exact ⟨[_], rfl, .inl ⟨quiet_singleton rfl rfl, rfl⟩⟩
  | resetCompletes | resetOverflows => exact ⟨[], (List.append_nil _).symm, .inl ⟨nofun, rfl⟩⟩
  | @dispatchRead a he =>
    obtain ⟨low, high, events, hd, htrace, hlow, hhigh⟩ := readDispatch_events a s
    refine ⟨events, htrace, .inr ⟨a, low, high, he, hd, (readDispatch_frame a s).1.icount, fun hdis => ?_⟩⟩
    exact ⟨hlow ▸ (hdis (oddAddress a)).1, hhigh ▸ (hdis a).1⟩
  | @dispatchWrite _ a _ w he =>
    obtain ⟨low, high, events, hd, htrace, hlow, hhigh⟩ := writeDispatch_events a w s
    refine ⟨events, htrace, .inr ⟨a, low, high, he, hd, (writeDispatch_spec a w s).1.icount, fun hdis => ?_⟩⟩
    exact ⟨hlow ▸ (hdis (oddAddress a)).2, hhigh ▸ (hdis a).2⟩

/-! What histories cost. -/

theorem cyclesOf_append (es fs : List Event) : cyclesOf (es ++ fs) = cyclesOf es + cyclesOf fs := by
  induction es with
  | nil => simp [cyclesOf]
  | cons e es ih => simp [cyclesOf, ih, add_assoc]

theorem cyclesOf_eq_zero {es : List Event} (h : ∀ e ∈ es, e.cycles = 0) : cyclesOf es = 0 := by
  induction es with
  | nil => rfl
  | cons e es ih => simp [cyclesOf, h e List.mem_cons_self, ih fun x hx => h x (List.mem_cons_of_mem e hx)]

/-- A call of a device is no wait (R26). -/
theorem cycles_of_deviceAddress {e : Event} {x : Addr} (h : e.deviceAddress = some x) : e.cycles = 0 := by
  cases e with
  | wait n => cases h
  | _ => rfl

theorem DispatchEvents.cyclesOf_eq {a : Addr} {low high events : List Event} (h : DispatchEvents a low high events) :
    cyclesOf events = 6 := by
  have hlow : cyclesOf low = 0 := cyclesOf_eq_zero fun e he => cycles_of_deviceAddress (h.low_address e he)
  have hhigh : cyclesOf high = 0 := cyclesOf_eq_zero fun e he => cycles_of_deviceAddress (h.high_address e he)
  simp [h.events_eq, cyclesOf_append, hlow, hhigh, cyclesOf, Event.cycles]

/-- Settles O48: a dispatched access charges and records 3 cycles twice, any other operation neither. -/
theorem icountFallsByTheWaits : Obligations.IcountFallsByTheWaits := by
  intro s t i h
  obtain ⟨events, htrace, ⟨hquiet, hicount⟩ | ⟨a, low, high, -, hd, hicount, -⟩⟩ := (served_of_exec h).events
  · exact ⟨events, htrace, by simp [hicount, cyclesOf_eq_zero fun e he => (hquiet e he).2]⟩
  · exact ⟨events, htrace, by rw [hicount, hd.cyclesOf_eq]⟩

/-! How often devices are called. -/

theorem isDevice_eq (e : Event) : e.isDevice = e.deviceAddress.isSome := by
  cases e <;> rfl

/-- Of the calls at one address, those at `b`: all or none. -/
theorem filter_deviceAddress {es : List Event} {x : Addr} (h : ∀ e ∈ es, e.deviceAddress = some x) (b : Addr) :
    (es.filter fun e => e.deviceAddress == some b) = if x = b then es else [] := by
  split
  · next hx => exact List.filter_eq_self.mpr fun e he => by simp [h e he, hx]
  · next hx => exact List.filter_eq_nil_iff.mpr fun e he => by simp [h e he, hx]

theorem filter_isDevice {es : List Event} {x : Addr} (h : ∀ e ∈ es, e.deviceAddress = some x) :
    es.filter Event.isDevice = es :=
  List.filter_eq_self.mpr fun e he => by simp [isDevice_eq, h e he]

theorem DispatchEvents.deviceCalls {a : Addr} {low high events : List Event} (h : DispatchEvents a low high events) :
    events.filter Event.isDevice = low ++ high := by
  simp [h.events_eq, filter_isDevice h.low_address, filter_isDevice h.high_address, Event.isDevice]

theorem DispatchEvents.callsAt {a : Addr} {low high events : List Event} (h : DispatchEvents a low high events) (b : Addr) :
    (events.filter fun e => e.deviceAddress == some b) =
      (if oddAddress a = b then low else []) ++ (if a = b then high else []) := by
  simp [h.events_eq, filter_deviceAddress h.low_address, filter_deviceAddress h.high_address]

theorem oddAddress_ne {a : Addr} (he : isEven a = true) : oddAddress a ≠ a := by
  intro h
  have := oddAddress_toNat he
  rw [h] at this
  omega

/-- Settles O55: a dispatch calls at most the one slot that answers its address, and the two addresses differ. -/
theorem disjointRegistriesCallOneDevicePerByte : Obligations.DisjointRegistriesCallOneDevicePerByte := by
  intro s t i hdis h
  obtain ⟨events, htrace, ⟨hquiet, -⟩ | ⟨a, low, high, he, hd, -, hlength⟩⟩ := (served_of_exec h).events
  · refine ⟨events, htrace, ?_, fun b => ?_⟩
    · rw [List.filter_eq_nil_iff.mpr fun e he => by simp [isDevice_eq, (hquiet e he).1]]; exact Nat.zero_le _
    · rw [List.filter_eq_nil_iff.mpr fun e he => by simp [(hquiet e he).1]]; exact Nat.zero_le _
  · obtain ⟨hlow, hhigh⟩ := hlength hdis
    refine ⟨events, htrace, ?_, fun b => ?_⟩
    · rw [hd.deviceCalls, List.length_append]; omega
    · rw [hd.callsAt b]
      by_cases hb : a = b
      · simpa [hb, hb ▸ oddAddress_ne he] using hhigh
      · rw [if_neg hb, List.append_nil]
        split
        · exact hlow
        · exact Nat.zero_le 1

/-! ## Handlers that return `prior` -/

/-- Settles O56: each byte is the last of its dispatch's calls, and a call that returns `prior` leaves it. -/
theorem keepingHandlerLetsTheOldByteStand : Obligations.KeepingHandlerLetsTheOldByteStand := by
  intro s a he hp hb
  obtain ⟨start, n, hcache, hzero, -, hlatch, hhigh, hresponse, hdevices⟩ := readDispatch_calls a s
  refine ⟨readDispatch a s, start, n, exec_read16_dispatch he hp hb, hcache, hzero, ?_, ?_, ?_, ?_, ?_,
    fun _ _ _ _ _ => rfl, ?_⟩
  · rw [hresponse, hlatch, hhigh]
  · intro hall; rw [hlatch]; exact lastByte_allReturnPrior s _ _ _ _ _ hall
  · intro hall; rw [hhigh]; exact lastByte_allReturnPrior s _ _ _ _ _ hall
  · intro is i h f hslots hr hf
    rw [hlatch, hslots]
    exact lastByte_returnsPrior hr hf _ _ _ _ _
  · intro is i h f hslots hr hf
    rw [hhigh, hslots]
    exact lastByte_returnsPrior hr hf _ _ _ _ _
  · intro hkeep d
    rw [hdevices, readCalls_keep _ _ _ _ _ _ fun i h f hi => hkeep i h f (List.mem_append_right _ hi),
      readCalls_keep _ _ _ _ _ _ fun i h f hi => hkeep i h f (List.mem_append_left _ hi)]

/-! ## The select tests -/

theorem readMatches_iff (d : Descriptor) (a : Addr) :
    readMatches (some d) a = true ↔ d.readFn ≠ none ∧ a &&& d.addressMask = d.selectPattern := by
  simp [readMatches, Option.isSome_iff_ne_none]

theorem writeMatches_iff (d : Descriptor) (a : Addr) :
    writeMatches (some d) a = true ↔
      d.writeFn ≠ none ∧ a &&& d.addressMask = d.selectPattern ||| d.writeSelectPattern := by
  simp [writeMatches, Option.isSome_iff_ne_none]

/-- The bits an address is tested in lie in the mask (R20). -/
theorem masked_and_not (a m : Word) : (a &&& m) &&& ~~~m = 0#16 := by
  simp [BitVec.and_assoc]

/-- Settles O52: a pattern an address matches under a mask has no bit outside the mask. -/
theorem patternsAndMasks : Obligations.PatternsAndMasks := by
  intro d a
  refine ⟨?_, ?_, ?_, ?_, ?_, ?_⟩
  · intro hr; simp [readMatches, hr]
  · intro hw; simp [writeMatches, hw]
  · intro hbit
    refine Bool.eq_false_iff.mpr fun hm => hbit ?_
    rw [← ((readMatches_iff d a).mp hm).2]
    exact masked_and_not a d.addressMask
  · intro hbit
    refine Bool.eq_false_iff.mpr fun hm => hbit ?_
    rw [← ((writeMatches_iff d a).mp hm).2]
    exact masked_and_not a d.addressMask
  · intro hmask hpattern hr
    exact (readMatches_iff d a).mpr ⟨hr, by simp [hmask, hpattern]⟩
  · intro hselect hr hw
    rw [Bool.eq_iff_iff, readMatches_iff, writeMatches_iff, hselect, BitVec.or_zero]
    simp [hr, hw]

/-- One bit of two patterns and their masks: where the patterns agree in what both masks test and lie in their masks, their
union has each pattern under its mask. -/
theorem or_masked_bit : ∀ m n p q : Bool, ((p ^^ q) && (m && n)) = false → (p && !m) = false → (q && !n) = false →
    ((p || q) && m) = p ∧ ((p || q) && n) = q := by
  decide

theorem agree_masked_bit : ∀ a m n : Bool, (((a && m) ^^ (a && n)) && (m && n)) = false := by
  decide

/-- Some address has the bits `p` under the mask `m` and `q` under `n` exactly when the patterns agree in the bits of both
masks and lie in their own: then `p ||| q` is one (R23). -/
theorem exists_common_address_iff (m n p q : Word) :
    (∃ a : Addr, a &&& m = p ∧ a &&& n = q) ↔
      (p ^^^ q) &&& (m &&& n) = 0#16 ∧ p &&& ~~~m = 0#16 ∧ q &&& ~~~n = 0#16 := by
  constructor
  · rintro ⟨a, rfl, rfl⟩
    refine ⟨?_, masked_and_not a m, masked_and_not a n⟩
    ext i hi
    simpa only [BitVec.getElem_and, BitVec.getElem_xor, BitVec.getElem_zero] using agree_masked_bit a[i] m[i] n[i]
  · rintro ⟨hboth, hp, hq⟩
    have bit : ∀ i (hi : i < 16), ((p[i] || q[i]) && m[i]) = p[i] ∧ ((p[i] || q[i]) && n[i]) = q[i] := by
      intro i hi
      refine or_masked_bit m[i] n[i] p[i] q[i] ?_ ?_ ?_
      · simpa only [BitVec.getElem_and, BitVec.getElem_xor, BitVec.getElem_zero] using
          congrArg (fun x : Word => x[i]) hboth
      · simpa only [BitVec.getElem_and, BitVec.getElem_not, BitVec.getElem_zero] using congrArg (fun x : Word => x[i]) hp
      · simpa only [BitVec.getElem_and, BitVec.getElem_not, BitVec.getElem_zero] using congrArg (fun x : Word => x[i]) hq
    refine ⟨p ||| q, ?_, ?_⟩
    · ext i hi
      simpa only [BitVec.getElem_and, BitVec.getElem_or] using (bit i hi).1
    · ext i hi
      simpa only [BitVec.getElem_and, BitVec.getElem_or] using (bit i hi).2

/-- Settles O54: the criterion denies the three conditions under which a common address exists. -/
theorem readOverlapCriterion : Obligations.ReadOverlapCriterion := by
  intro d e hd he
  have hcommon : (∃ a : Addr, readMatches (some d) a = true ∧ readMatches (some e) a = true) ↔
      ∃ a : Addr, a &&& d.addressMask = d.selectPattern ∧ a &&& e.addressMask = e.selectPattern := by
    simp only [readMatches_iff, hd, he, ne_eq, not_false_eq_true, true_and]
  rw [← not_exists, hcommon, exists_common_address_iff, not_and_or, not_and_or]

end Sys2Proof.Machine

/-! PROOFS of the family 20_memory.md: the address map, accesses at odd addresses, reads after writes in the bypass buffer
and in a RAM8 device, unmapped reads, and the step. -/

namespace Sys2Proof.Machine

/-! ## Addresses -/

/-- Settles O8: bit 0 of an even address is clear, so adding 1 sets it and carries nothing. -/
theorem oddAddressNeverWraps : Obligations.OddAddressNeverWraps := by
  intro a he
  have hnat := oddAddress_toNat he
  have hbit : a.getLsbD 0 = false := by simpa [isEven] using he
  refine ⟨BitVec.add_eq_or_of_and_eq_zero a 1#16 ?_, hnat, BitVec.eq_of_toNat_eq ?_⟩
  · rw [BitVec.and_one_eq_setWidth_ofBool_getLsbD, hbit]
    rfl
  · have := (isEven_iff a).mp he
    rw [BitVec.extractLsb'_toNat, BitVec.extractLsb'_toNat, hnat, Nat.shiftRight_eq_div_pow, Nat.shiftRight_eq_div_pow]
    omega

theorem wordAccess_odd {a : Addr} (ho : isEven a = false) (s next : State) :
    wordAccess a s next = .refused .oddAddress := by
  simp [wordAccess, ho]

/-- Settles O32: the check of the address stands before every other. -/
theorem oddAddressIsRefused : Obligations.OddAddressIsRefused := by
  intro s a v mask ho
  refine ⟨wordAccess_odd ho s _, ?_⟩
  rw [exec_write16Form]
  exact wordAccess_odd ho s _

/-! ## The windows -/

/-- Under a mask of the bits from `k` up, an address keeps the number of its block of `2 ^ k` addresses. -/
theorem and_topBits_eq_iff (a c : Addr) {m : Addr} (k n : Nat) (hkn : k + n = 16) (hlow : m.toNat % 2 ^ k = 0)
    (hhigh : m.toNat / 2 ^ k = 2 ^ n - 1) : a &&& m = c ↔ 2 ^ k * (a.toNat / 2 ^ k) = c.toNat := by
  have ha : a.toNat / 2 ^ k < 2 ^ n := Nat.div_lt_of_lt_mul (by rw [← pow_add, hkn]; exact a.isLt)
  have hdiv : (a &&& m).toNat / 2 ^ k = a.toNat / 2 ^ k := by
    rw [BitVec.toNat_and, Nat.and_div_two_pow, hhigh, Nat.and_two_pow_sub_one_eq_mod, Nat.mod_eq_of_lt ha]
  have hmod : (a &&& m).toNat % 2 ^ k = 0 := by rw [BitVec.toNat_and, Nat.and_mod_two_pow, hlow, Nat.and_zero]
  rw [← BitVec.toNat_inj, ← Nat.div_add_mod (a &&& m).toNat (2 ^ k), hdiv, hmod, Nat.add_zero]

/-- Settles O50: each mask test names an aligned block of 0x2000 or 0x4000 addresses, and the three blocks are the two
ranges. -/
theorem windowRangesAndMasks : Obligations.WindowRangesAndMasks := by
  intro a
  have := a.isLt
  rw [inFastWindow_iff, and_topBits_eq_iff a _ 13 3 rfl rfl rfl, and_topBits_eq_iff a _ 13 3 rfl rfl rfl,
    and_topBits_eq_iff a _ 14 2 rfl rfl rfl]
  simp only [BitVec.toNat_ofNat]
  omega

/-- Different words of the windows lie at different places of the buffer (R48). -/
theorem fastIndex_injective {a b : Addr} (hae : isEven a = true) (hbe : isEven b = true) (haw : inFastWindow a = true)
    (hbw : inFastWindow b = true) (h : fastIndex a = fastIndex b) : a = b := by
  have := a.isLt
  have := b.isLt
  rw [isEven_iff] at hae hbe
  apply BitVec.eq_of_toNat_eq
  obtain ⟨ha1, ha2⟩ | ha := (inFastWindow_iff a).mp haw <;> obtain ⟨hb1, hb2⟩ | hb := (inFastWindow_iff b).mp hbw
  · rw [fastIndex_low ha1 ha2, fastIndex_low hb1 hb2] at h; omega
  · rw [fastIndex_low ha1 ha2, fastIndex_high hb] at h; omega
  · rw [fastIndex_high ha, fastIndex_low hb1 hb2] at h; omega
  · rw [fastIndex_high ha, fastIndex_high hb] at h; omega

/-- Every word of the buffer is reached: the first 0x1000 from the low window, the rest from the high one (R48). -/
theorem exists_fastIndex_eq {k : Nat} (hk : k < 0x4000) :
    ∃ a : Addr, isEven a = true ∧ inFastWindow a = true ∧ fastIndex a = k := by
  by_cases hlow : k < 0x1000
  · have ha : (BitVec.ofNat 16 (0x2000 + 2 * k)).toNat = 0x2000 + 2 * k := by
      rw [BitVec.toNat_ofNat]; omega
    refine ⟨BitVec.ofNat 16 (0x2000 + 2 * k), ?_, ?_, ?_⟩
    · rw [isEven_iff]; omega
    · rw [inFastWindow_iff]; omega
    · rw [fastIndex_low (by omega) (by omega)]; omega
  · have ha : (BitVec.ofNat 16 (0x8000 + 2 * k)).toNat = 0x8000 + 2 * k := by
      rw [BitVec.toNat_ofNat]; omega
    refine ⟨BitVec.ofNat 16 (0x8000 + 2 * k), ?_, ?_, ?_⟩
    · rw [isEven_iff]; omega
    · rw [inFastWindow_iff]; omega
    · rw [fastIndex_high (by omega)]; omega

/-- Settles O51: on each window `FastIndex` halves the distance from its first address, and the two runs of words meet at
0x1000. -/
theorem fastIndexIsABijection : Obligations.FastIndexIsABijection :=
  ⟨fun _ => fastIndex_low, fun _ => fastIndex_high, fun _ _ => fastIndex_injective, fun _ => fastIndex_lt,
    fun _ => exists_fastIndex_eq⟩

/-! ## The bypass path -/

/-- Settles O16: a write sets the one word of its address, and no other even window address has that word. -/
theorem bypassReadAfterWrite : Obligations.BypassReadAfterWrite := by
  intro s a b v hae hbe hp hab hbb
  refine ⟨writeBypass a v s, readBypass b (writeBypass a v s), exec_write16_bypass .word v hae hp hab,
    exec_read16_bypass hbe hp hbb, ?_⟩
  have hresponse : (readBypass b (writeBypass a v s)).response =
      .word ((s.setFastWord (fastIndex a) v).fastWord (fastIndex b)) := rfl
  rw [hresponse]
  split
  · next hba => rw [hba, fastWord_setFastWord_same]
  · next hba =>
    have hne : fastIndex b ≠ fastIndex a := fun h =>
      hba (fastIndex_injective hbe hae ((bypass_iff s b).mp hbb).2 ((bypass_iff s a).mp hab).2 h)
    rw [fastWord_setFastWord_other s v hne]

theorem readBypass_registry (a : Addr) (s u : State) :
    readBypass a { s with registry := u.registry, devindex := u.devindex } =
      { readBypass a s with registry := u.registry, devindex := u.devindex } := rfl

theorem writeBypass_registry (a : Addr) (w : Word) (s u : State) :
    writeBypass a w { s with registry := u.registry, devindex := u.devindex } =
      { writeBypass a w s with registry := u.registry, devindex := u.devindex } := rfl

/-- Settles O47: the bypass path reads no slot, and the test that selects it looks at the flag and the address only. -/
theorem windowsShadowTheRegistry : Obligations.WindowsShadowTheRegistry := by
  rintro s u t i a (rfl | ⟨mask, v, rfl⟩) hb h
  · obtain ⟨he, hp, ⟨-, rfl⟩ | ⟨hd, -⟩⟩ := exec_read16_cases h
    · refine ⟨rfl, rfl, ?_⟩
      rw [← readBypass_registry]
      exact exec_read16_bypass he hp hb
    · exact absurd hb (by simp [hd])
  · obtain ⟨he, hp, ⟨-, rfl⟩ | ⟨hd, -⟩⟩ := exec_write16_cases h
    · refine ⟨rfl, rfl, ?_⟩
      rw [← writeBypass_registry]
      exact exec_write16_bypass mask v he hp hb
    · exact absurd hb (by simp [hd])

/-! ## Reads that no slot answers -/

theorem SameBlock.readSlots {s t : State} (h : SameBlock s t) (a : Addr) : t.readSlots a = s.readSlots a := by
  simp only [State.readSlots, h.readMatch]

/-- A low-byte dispatch that calls no device writes `latch` back and charges its wait states (R124, R126). -/
theorem readLowDispatch_unanswered {s : State} {a : Addr} (h : s.readSlots (oddAddress a) = []) :
    readLowDispatch a s = s.consume Config.waitCycles := by
  simp only [readLowDispatch, readScan_none _ _ _ _ h]
  rfl

/-- A high-byte dispatch that calls no device gives `OpenBusHigh()` (R125, R126). -/
theorem readHighDispatch_unanswered {s : State} {a : Addr} (h : s.readSlots a = []) :
    readHighDispatch a s = ((openBusHigh s).1, (openBusHigh s).2.consume Config.waitCycles) := by
  have hslots : (openBusHigh s).2.readSlots a = [] := ((openBusHigh_sameBlock s).readSlots a).trans h
  simp only [readHighDispatch, readScan_none _ _ _ _ hslots]

/-- `OpenBusHigh()` does not look at the cycles (R125). -/
theorem openBusHigh_consume (s : State) (n : Nat) :
    openBusHigh (s.consume n) = ((openBusHigh s).1, (openBusHigh s).2.consume n) := by
  simp only [openBusHigh, State.consume_params]
  cases s.params.openBusHigh <;> rfl

theorem openBusHigh_eq_draws (s : State) : (openBusHigh s).2 = { s with draws := (openBusHigh s).2.draws } := by
  obtain h | h := openBusHigh_state s <;> rw [h]

theorem openBusHigh_draws (s : State) (h : s.params.openBusHigh ≠ .draw) : (openBusHigh s).2.draws = s.draws := by
  unfold openBusHigh
  split
  · rfl
  · rfl
  · next hd => exact absurd hd h

/-- The whole next state of a read no slot answers (R126, R128, R210). -/
theorem readDispatch_unanswered {s : State} {a : Addr} (hlow : s.readSlots (oddAddress a) = [])
    (hhigh : s.readSlots a = []) :
    readDispatch a s = { s with
      lowByteCache := s.latch, highByteCache := (openBusHigh s).1, icount := s.icount - 6
      trace := s.trace ++ [.wait 3, .wait 3], response := .word (ofBytes (openBusHigh s).1 s.latch)
      draws := (openBusHigh s).2.draws } := by
  have hhigh' : (s.consume Config.waitCycles).readSlots a = [] := hhigh
  simp only [readDispatch, readLowDispatch_unanswered hlow, readHighDispatch_unanswered hhigh', openBusHigh_consume]
  rw [openBusHigh_eq_draws s]
  have hcycles : s.icount - 3 - 3 = s.icount - 6 := by omega
  apply State.ext <;> simp [Config.waitCycles, hcycles]

/-- Settles O6: no device is called, and the open bus gives the high byte. -/
theorem unmappedReadRewritesTheCaches : Obligations.UnmappedReadRewritesTheCaches := by
  intro s a he hp hb hlow hhigh
  refine ⟨(openBusHigh s).1, (openBusHigh s).2.draws, ?_, ?_, ?_⟩
  · intro hc; exact ⟨(openBusHigh_value s).1 hc, openBusHigh_draws s (by simp [hc])⟩
  · intro hz; exact ⟨(openBusHigh_value s).2 hz, openBusHigh_draws s (by simp [hz])⟩
  · rw [exec_read16_dispatch he hp hb, readDispatch_unanswered hlow hhigh]

/-! ## A RAM8 device -/

/-- A byte read from a RAM8 stub after a byte was written to it (95_test_vectors.md). -/
theorem byteAt_runWrite_ram8 (n h : Nat) (d : DeviceState) (a x : Addr) (b : Byte) :
    (runWrite .ram8 n h d a b).byteAt h x = if x = a then b else d.byteAt h x := by
  simp only [DeviceState.byteAt, runWrite, listed_put, BitVec.toNat_inj]
  split <;> rfl

/-- A word write that one RAM8 slot accepts at both bytes leaves them in its device (R145, R146). -/
theorem writeDispatch_ram8 {s : State} {a : Addr} {i h : Nat} (v : Word) (hlow : s.writeSlots (oddAddress a) = [i])
    (hhigh : s.writeSlots a = [i]) (hw : s.writer i = some (h, .ram8)) (he : isEven a = true) :
    ((writeDispatch a v s).deviceAt h).byteAt h (oddAddress a) = lowByte v ∧
      ((writeDispatch a v s).deviceAt h).byteAt h a = highByte v := by
  have hdevices := (writeDispatch_calls a v s).1
  simp only [hlow, hhigh, writeCalls, hw, if_true] at hdevices
  rw [hdevices]
  simp [byteAt_runWrite_ram8, oddAddress_ne he]

/-- A read that one RAM8 slot answers at both bytes returns those of its device (R123, R125, R129). -/
theorem readDispatch_ram8 {s : State} {a : Addr} {i h : Nat} (hlow : s.readSlots (oddAddress a) = [i])
    (hhigh : s.readSlots a = [i]) (hr : s.reader i = some (h, .ram8)) :
    (readDispatch a s).response =
      .word (ofBytes ((s.deviceAt h).byteAt h a) ((s.deviceAt h).byteAt h (oddAddress a))) := by
  obtain ⟨start, n, -, -, -, -, -, hresponse, -⟩ := readDispatch_calls a s
  simpa [hlow, hhigh, readCalls, hr, runRead, lastByte] using hresponse

/-- Settles O17: the write leaves the two bytes in the device and the registry as it was, and the read fetches them. -/
theorem ram8ReadAfterWrite : Obligations.Ram8ReadAfterWrite := by
  intro s a v i h he hp hb hrlow hrhigh hwlow hwhigh hr hw
  have hframe := (writeDispatch_spec a v s).1
  obtain ⟨hlow, hhigh⟩ := writeDispatch_ram8 v hwlow hwhigh hw he
  have hbypass : (writeDispatch a v s).bypass a = false := by
    rw [← hb]; simp only [State.bypass, hframe.useFastPath]
  refine ⟨writeDispatch a v s, _, exec_write16_dispatch .word v he hp hb,
    exec_read16_dispatch he (hframe.phase.trans hp) hbypass, ?_⟩
  rw [readDispatch_ram8 ((hframe.readSlots _).trans hrlow) ((hframe.readSlots _).trans hrhigh)
    ((congrFun hframe.reader i).trans hr), hlow, hhigh, ofBytes_split]

/-! ## The step -/

theorem fetch_cons {s : State} {r : Request} {rest : List Request} (h : s.requests = r :: rest) :
    s.fetch = some (r.word, { s with requests := rest }.arrive r.outside) := by
  simp only [State.fetch, h]

theorem step_of_decode_ok {s s' : State} {w : BusReq} {i : Instr} (hf : s.fetch = some (w, s')) (hd : decode w = .ok i) :
    step s = exec i s' := by
  simp only [step, hf, hd]

theorem step_of_decode_error {s s' : State} {w : BusReq} {e : DecodeError} (hf : s.fetch = some (w, s'))
    (hd : decode w = .error e) : step s = .refused (refusalOf e) := by
  simp only [step, hf, hd]

/-- Settles O38: the fetch takes the first request, and the decoder's answer selects what the step is. -/
theorem stepRunsTheDecodedRequest : Obligations.StepRunsTheDecodedRequest := by
  intro s r rest hrequests
  have hf := fetch_cons hrequests
  exact ⟨fun i => step_of_decode_ok hf, step_of_decode_error hf, step_of_decode_error hf, step_of_decode_error hf⟩

end Sys2Proof.Machine

/-! PROOFS of the family 30_encoding.md: what the decoder answers for each `kind` of request, the statements about words of
R79 and R80, and the byte write of R82. -/

namespace Sys2Proof.Machine

/-! ## The decoder, one equation per kind -/

theorem decode_kind_read16 {w : BusReq} (hk : kindField w = 0#3) :
    decode w = if isEven (addrField w) then .ok (.read16 (addrField w)) else .error .oddAddress := by
  simp [decode, hk]

theorem decode_kind_write16 {w : BusReq} (hk : kindField w = 1#3) :
    decode w =
      if isEven (addrField w) then decodeWrite (beField w) (addrField w) (dataField w) else .error .oddAddress := by
  simp [decode, hk]

theorem decode_kind_cruRead {w : BusReq} (hk : kindField w = 2#3) : decode w = .ok (.cruRead (addrField w)) := by
  simp [decode, hk]

theorem decode_kind_cruWrite {w : BusReq} (hk : kindField w = 3#3) :
    decode w = .ok (.cruWrite (addrField w) (dataField w)) := by
  simp [decode, hk]

theorem decode_kind_reset {w : BusReq} (hk : kindField w = 4#3) : decode w = .ok .reset := by
  simp [decode, hk]

theorem decode_kind_reserved {w : BusReq} (hk : 4 < (kindField w).toNat) : decode w = .error .reservedKind := by
  have hne : ∀ n ≤ 4, kindField w ≠ BitVec.ofNat 3 n := by
    intro n hn h
    rw [h, BitVec.toNat_ofNat] at hk
    omega
  simp [decode, hne 0 (by decide), hne 1 (by decide), hne 2 (by decide), hne 3 (by decide), hne 4 (by decide)]

/-- The five operations of R72 and the three reserved kinds. -/
theorem kind_cases (k : BitVec 3) : k = 0#3 ∨ k = 1#3 ∨ k = 2#3 ∨ k = 3#3 ∨ k = 4#3 ∨ 4 < k.toNat := by
  revert k
  decide

/-- The three forms of R73 and the illegal value. -/
theorem byteEnable_cases (be : BitVec 2) : be = 3#2 ∨ be = 2#2 ∨ be = 1#2 ∨ be = 0#2 := by
  revert be
  decide

/-- The form of a write is its byte enables (R73), and there is none for `be = 00`. -/
theorem decodeWrite_ok_iff {be : BitVec 2} {a : Addr} {v : Word} {i : Instr} :
    decodeWrite be a v = .ok i ↔
      (be = 3#2 ∧ i = .write16Word a v) ∨ (be = 2#2 ∧ i = .write16HighByteOnly a v) ∨
        (be = 1#2 ∧ i = .write16LowByteOnly a v) := by
  obtain rfl | rfl | rfl | rfl := byteEnable_cases be <;> simp [decodeWrite, eq_comm]

/-! ## Encoding and decoding -/

/-- A word of the write kind at an even address has the form its byte enables select, whatever they are. -/
theorem decode_busReq_write16 (be : BitVec 2) {a : Addr} (v : Word) (he : isEven a = true) :
    decode (busReq 1#3 be a v) = decodeWrite be a v := by
  rw [decode_kind_write16 (kindField_busReq ..), beField_busReq, addrField_busReq, dataField_busReq, if_pos he]

/-- Settles O33: the fields of a composed word are the ones it was composed of, and the equation of its kind reads them. -/
theorem decodeOfEncode : Obligations.DecodeOfEncode := by
  intro i he
  cases i with
  | read16 a =>
    have heven : isEven a = true := he
    rw [encode, decode_kind_read16 (kindField_busReq ..), addrField_busReq, if_pos heven]
  | write16Word a v => exact decode_busReq_write16 3#2 v he
  | write16HighByteOnly a v => exact decode_busReq_write16 2#2 v he
  | write16LowByteOnly a v => exact decode_busReq_write16 1#2 v he
  | cruRead c => rw [encode, decode_kind_cruRead (kindField_busReq ..), addrField_busReq]
  | cruWrite c v => rw [encode, decode_kind_cruWrite (kindField_busReq ..), addrField_busReq, dataField_busReq]
  | reset => exact decode_kind_reset (kindField_busReq ..)

/-! ## Reserved words -/

/-- `addr[0]` is bit 16 of the word (R71). -/
theorem isEven_addrField (w : BusReq) : isEven (addrField w) = !w.getLsbD 16 := by
  simp [isEven, addrField]

theorem exists_decodeWrite_ok_iff {be : BitVec 2} {a : Addr} {v : Word} :
    (∃ i, decodeWrite be a v = .ok i) ↔ be ≠ 0#2 := by
  obtain rfl | rfl | rfl | rfl := byteEnable_cases be <;> simp [decodeWrite]

/-- Settles O34: the equation of each kind names the words of that kind that are refused. -/
theorem reservedWordsAreExactlyRefused : Obligations.ReservedWordsAreExactlyRefused := by
  intro w
  obtain hk | hk | hk | hk | hk | hk := kind_cases (kindField w)
  · rw [decode_kind_read16 hk, isEven_addrField]
    cases w.getLsbD 16 <;> simp [hk]
  · rw [decode_kind_write16 hk, isEven_addrField]
    cases w.getLsbD 16 <;> simp [hk, exists_decodeWrite_ok_iff]
  · simp [decode_kind_cruRead hk, hk]
  · simp [decode_kind_cruWrite hk, hk]
  · simp [decode_kind_reset hk, hk]
  · simp [decode_kind_reserved hk, hk]

/-! ## The rows of the opcode table -/

/-- A mask over the whole of `kind` and none of `data` picks from the two fields between each on its own (R71). -/
theorem and_busReq_kindMask (w : BusReq) (be : BitVec 2) (a : Addr) :
    w &&& busReq 7#3 be a 0#16 = busReq (kindField w) (beField w &&& be) (addrField w &&& a) 0#16 := by
  have hkind : kindField w &&& 7#3 = kindField w := BitVec.and_allOnes
  conv_lhs => rw [← busReq_fields w]
  conv_rhs => rw [← hkind]
  apply eq_of_bits
  intro j _
  simp only [BitVec.getLsbD_and, getLsbD_busReq]
  split_ifs <;> simp

theorem and_one_of_even {a : Addr} (he : isEven a = true) : a &&& 1#16 = 0#16 := by
  have hbit : a.getLsbD 0 = false := by simpa [isEven] using he
  rw [BitVec.and_one_eq_setWidth_ofBool_getLsbD, hbit]
  rfl

theorem and_readMask {w : BusReq} (hk : kindField w = 0#3) (he : isEven (addrField w) = true) :
    w &&& busReq 7#3 0#2 1#16 0#16 = busReq 0#3 0#2 0#16 0#16 := by
  rw [and_busReq_kindMask, hk, BitVec.and_zero, and_one_of_even he]

/-- A write at an even address under the mask of the three write rows keeps its byte enables, which tell the rows apart. -/
theorem and_writeMask {w : BusReq} {be : BitVec 2} (hk : kindField w = 1#3) (hbe : beField w = be)
    (he : isEven (addrField w) = true) : w &&& busReq 7#3 3#2 1#16 0#16 = busReq 1#3 be 0#16 0#16 := by
  have hall : be &&& 3#2 = be := BitVec.and_allOnes
  rw [and_busReq_kindMask, hk, hbe, hall, and_one_of_even he]

/-- The rows of `CRU_READ`, `CRU_WRITE` and `RESET` are told by `kind` alone. -/
theorem and_kindOnlyMask {w : BusReq} {k : BitVec 3} (hk : kindField w = k) :
    w &&& busReq 7#3 0#2 0#16 0#16 = busReq k 0#2 0#16 0#16 := by
  rw [and_busReq_kindMask, hk, BitVec.and_zero, BitVec.and_zero]

/-- Settles O35: a row's mask covers the fields that its operation was decoded by, and its match holds their values. -/
theorem decodedWordsStandInTheirRow : Obligations.DecodedWordsStandInTheirRow := by
  intro w i h
  obtain hk | hk | hk | hk | hk | hk := kind_cases (kindField w)
  · rw [decode_kind_read16 hk] at h
    split at h
    · next he =>
      cases h
      exact ⟨he, and_readMask hk he⟩
    · cases h
  · rw [decode_kind_write16 hk] at h
    split at h
    · next he =>
      obtain ⟨hbe, rfl⟩ | ⟨hbe, rfl⟩ | ⟨hbe, rfl⟩ := decodeWrite_ok_iff.mp h <;>
        exact ⟨he, and_writeMask hk hbe he⟩
    · cases h
  · rw [decode_kind_cruRead hk] at h
    cases h
    exact ⟨rfl, and_kindOnlyMask hk⟩
  · rw [decode_kind_cruWrite hk] at h
    cases h
    exact ⟨rfl, and_kindOnlyMask hk⟩
  · rw [decode_kind_reset hk] at h
    cases h
    exact ⟨rfl, and_kindOnlyMask hk⟩
  · rw [decode_kind_reserved hk] at h
    cases h

/-! ## Ignored fields and sample words -/

/-- Settles O36: the equation of each kind reads none of the fields that kind ignores. -/
theorem ignoredFieldsHaveNoEffect : Obligations.IgnoredFieldsHaveNoEffect := by
  intro w w' hkind
  refine ⟨fun hk ha => ?_, fun hk ha => ?_, fun hk ha hd => ?_, fun hk => ?_⟩
  · rw [decode_kind_read16 hk, decode_kind_read16 (hkind ▸ hk), ha]
  · rw [decode_kind_cruRead hk, decode_kind_cruRead (hkind ▸ hk), ha]
  · rw [decode_kind_cruWrite hk, decode_kind_cruWrite (hkind ▸ hk), ha, hd]
  · rw [decode_kind_reset hk, decode_kind_reset (hkind ▸ hk)]

/-- Settles O37: each word is a literal, and the decoder computes. -/
theorem sampleWordsDecode : Obligations.SampleWordsDecode :=
  ⟨rfl, rfl, rfl, rfl, rfl, rfl, rfl, rfl, rfl, rfl, rfl, rfl, rfl⟩

/-! ## `writeb` -/

theorem fastByte_writeBypass (a : Addr) (w : Word) (s : State) (j : Nat) :
    (writeBypass a w s).fastByte j =
      if j = 2 * fastIndex a then highByte w else if j = 2 * fastIndex a + 1 then lowByte w else s.fastByte j :=
  fastByte_setFastWord s (fastIndex a) w j

/-- Below an odd address lies the even one of its word (R43, R82). -/
theorem toNat_sub_one_of_odd {b : Addr} (ho : isEven b = false) : b.toNat % 2 = 1 ∧ (b - 1#16).toNat = b.toNat - 1 := by
  have hodd : ¬ b.toNat % 2 = 0 := fun h => by simp [(isEven_iff b).mpr h] at ho
  exact ⟨by omega, by bv_omega⟩

/-- The two bytes of a word lie in the same window and belong to the same word of the buffer, because each window begins at
an even address (R47, R48). -/
theorem sub_one_of_odd {b : Addr} (ho : isEven b = false) (hw : inFastWindow b = true) :
    isEven (b - 1#16) = true ∧ inFastWindow (b - 1#16) = true ∧ fastIndex (b - 1#16) = fastIndex b := by
  obtain ⟨hodd, hnat⟩ := toNat_sub_one_of_odd ho
  rw [isEven_iff, inFastWindow_iff]
  obtain ⟨h1, h2⟩ | h1 := (inFastWindow_iff b).mp hw
  · rw [fastIndex_low (a := b - 1#16) (by omega) (by omega), fastIndex_low h1 h2]; omega
  · rw [fastIndex_high (a := b - 1#16) (by omega), fastIndex_high h1]; omega

/-- Settles O18: `writeb` is the byte write of its lane, which stores the other lane's cached byte beside it. -/
theorem writebStoresOneLane : Obligations.WritebStoresOneLane := by
  intro s b v hp hfast hw
  cases hb : isEven b with
  | true =>
    have hexec := exec_write16_bypass .highByteOnly (v ++ 0#8) hb hp ((bypass_iff s b).mpr ⟨hfast, hw⟩)
    have hexpand : expandWriteb b v = write16Form .highByteOnly b (v ++ 0#8) := if_pos hb
    have hbyte : highByte (v ++ 0#8) = v := highByte_ofBytes v 0#8
    refine ⟨_, hexpand ▸ hexec, ?_, fun _ => ?_, nofun, fun k hk => ?_⟩
    · simp [fastByte_writeBypass, fastOffset, hb, mergedWord, hbyte]
    · simp [fastByte_writeBypass, fastOffset, hb, mergedWord]
    · rw [fastByte_writeBypass, if_neg (by omega), if_neg (by omega)]
  | false =>
    obtain ⟨heven, hwindow, hindex⟩ := sub_one_of_odd hb hw
    have hexec := exec_write16_bypass .lowByteOnly (0#8 ++ v) heven hp ((bypass_iff s _).mpr ⟨hfast, hwindow⟩)
    have hexpand : expandWriteb b v = write16Form .lowByteOnly (b - 1#16) (0#8 ++ v) := if_neg (by simp [hb])
    have hbyte : lowByte (0#8 ++ v) = v := lowByte_ofBytes 0#8 v
    refine ⟨_, hexpand ▸ hexec, ?_, nofun, fun _ => ?_, fun k hk => ?_⟩
    · simp [fastByte_writeBypass, fastOffset, hb, hindex, mergedWord, hbyte]
    · simp [fastByte_writeBypass, fastOffset, hb, hindex, mergedWord]
    · rw [fastByte_writeBypass, hindex, if_neg (by omega), if_neg (by omega)]

end Sys2Proof.Machine

/-! PROOFS of the family 40_mount.md: what `reset` answers for each outcome of the mount, the registry a completed reset
leaves, and the presence condition bit by bit. -/

namespace Sys2Proof.Machine

/-! ## What a reset answers -/

theorem exec_reset_of_mounted {s : State} {slots : List Descriptor} {log : List LogLine}
    (hw : sidebandWellFormed s.params s.sideband = true) (hm : mount s.params s.sideband = .mounted slots log) :
    exec .reset s = .next (resetCompleted slots log s) := by
  simp only [exec, execReset, if_pos hw, hm]

theorem exec_reset_of_overflow {s : State} {name : Nat} {log : List LogLine}
    (hw : sidebandWellFormed s.params s.sideband = true) (hm : mount s.params s.sideband = .overflow name log) :
    exec .reset s = .next (raiseRegistryOverflow name log s) := by
  simp only [exec, execReset, if_pos hw, hm]

theorem exec_reset_of_illFormed {s : State} (hw : ¬ sidebandWellFormed s.params s.sideband = true) :
    exec .reset s = .refused .illFormedReset :=
  if_neg hw

/-- The slots of a completed reset hold the mounted descriptors from 0 upward and are empty after them (R22, R105). -/
theorem resetCompleted_slot (s : State) (slots : List Descriptor) (log : List LogLine) {i : Nat} (hi : i < 10) :
    (resetCompleted slots log s).slot i = slots[i]? :=
  fillRegistry_slot slots hi

/-! ## The three outcomes of a mount -/

/-- The descriptors of the mountable candidates, in list order (R105). -/
def mountedDescriptors (p : Params) (sb : Sideband) : List Descriptor :=
  (mountable p sb).map fun m => descriptorOf m.1 m.2

@[simp] theorem mountedDescriptors_length (p : Params) (sb : Sideband) :
    (mountedDescriptors p sb).length = (mountable p sb).length :=
  List.length_map _

@[simp] theorem mountedDescriptors_getElem? (p : Params) (sb : Sideband) (i : Nat) :
    (mountedDescriptors p sb)[i]? = ((mountable p sb)[i]?).map fun m => descriptorOf m.1 m.2 :=
  List.getElem?_map

theorem mount_of_fits {p : Params} {sb : Sideband} (h : (mountable p sb).length ≤ 10) :
    mount p sb = .mounted (mountedDescriptors p sb) (missingOf sb sb.candidates) :=
  mountFrom_fits p sb sb.candidates [] [] (by rwa [List.length_nil, Nat.zero_add])

theorem mount_of_overflow {p : Params} {sb : Sideband} (hp : p.overflowPolicy = .refuse)
    (h : 10 < (mountable p sb).length) :
    ∃ m log, (mountable p sb)[10]? = some m ∧ mount p sb = .overflow m.2.deviceName log :=
  mountFrom_overflows p sb hp sb.candidates [] [] (Nat.zero_le _) (by rwa [List.length_nil, Nat.zero_add])

theorem mount_of_drop {p : Params} {sb : Sideband} (hp : p.overflowPolicy = .drop) :
    mount p sb = .mounted ((mountedDescriptors p sb).take 10) (dropLines p sb) :=
  mountFrom_drops p sb hp sb.candidates [] [] [] rfl rfl

/-- The overflow lines of a mount under `drop` name the mountable candidates after the tenth (R106). -/
theorem dropLines_overflows (p : Params) (sb : Sideband) :
    (dropLines p sb).filter (fun l => l.code == .registryOverflow) =
      ((mountable p sb).drop 10).map fun m => ⟨.registryOverflow, m.2.deviceName⟩ :=
  dropLine_overflows p sb sb.candidates [] rfl

/-- Settles O23: the mount fits, and the completed reset fills the registry from it. -/
theorem resetMountsCandidatesInOrder : Obligations.ResetMountsCandidatesInOrder := by
  intro s hw hfits
  refine ⟨_, exec_reset_of_mounted hw (mount_of_fits hfits), fun i hi => ?_, mountedDescriptors_length _ _, rfl, rfl, rfl,
    rfl, rfl, rfl, rfl, rfl, rfl, rfl, rfl⟩
  rw [resetCompleted_slot s _ _ hi, mountedDescriptors_getElem?]

/-- Settles O24: the mount overflows, and the failed reset redraws the block and leaves its environment. -/
theorem overflowFailsTheReset : Obligations.OverflowFailsTheReset := by
  intro s hw hrefuse hover
  obtain ⟨m, log, htenth, hm⟩ := mount_of_overflow hrefuse hover
  exact ⟨_, m, htenth, exec_reset_of_overflow hw hm, rfl, rfl, rfl, rfl, rfl, rfl, rfl, rfl, rfl⟩

/-- Settles O25: the mount keeps the first ten descriptors, so the slots below ten are those of the whole list. -/
theorem overflowDropsTheRest : Obligations.OverflowDropsTheRest := by
  intro s hw hdrop hover
  have hten : ((mountedDescriptors s.params s.sideband).take 10).length = 10 := by
    rw [List.length_take, mountedDescriptors_length, Nat.min_eq_left hover.le]
  refine ⟨_, exec_reset_of_mounted hw (mount_of_drop hdrop), rfl, hten, rfl, fun i hi => ?_, rfl, rfl,
    dropLines_overflows _ _, rfl, rfl, rfl, rfl, rfl, rfl, rfl⟩
  rw [resetCompleted_slot s _ _ hi, List.getElem?_take_of_lt hi, mountedDescriptors_getElem?]

/-- Settles O28: a reset that completes did so by its mount, which reads the operands only. -/
theorem remountForgetsTheOldRegistry : Obligations.RemountForgetsTheOldRegistry := by
  intro s t u h hrun hparams hsideband
  obtain ⟨hw, ⟨slots, log, hm, rfl⟩ | ⟨name, log, -, rfl⟩⟩ := exec_reset_cases h
  · rw [← hparams, ← hsideband] at hw hm
    refine ⟨_, exec_reset_of_mounted hw hm, rfl, rfl, rfl, ?_⟩
    exact congrArg flagAtReset hsideband
  · cases hrun

/-! ## Ill-formed operands -/

theorem candidateWellFormed_eq_false_iff {p : Params} {config : List (Nat × Nat)} {c : Candidate} :
    candidateWellFormed p config c = false ↔
      (c.readFn = none ∧ c.writeFn = none) ∨ (unconditional p c = false ∧ lookupName config c.settingName = none) := by
  rw [candidateWellFormed, Bool.and_eq_false_iff]
  simp

/-- Settles O26: one ill-formed candidate makes the operands ill-formed. -/
theorem illFormedResetIsRefused : Obligations.IllFormedResetIsRefused := by
  intro s c hc hill
  refine exec_reset_of_illFormed fun hw => ?_
  have hwell : candidateWellFormed s.params s.sideband.runtimeConfig c = true := List.all_eq_true.mp hw c hc
  rw [candidateWellFormed_eq_false_iff.mpr hill] at hwell
  cases hwell

/-! ## The presence condition -/

theorem getLsbD_cfgBits (p : Params) (n : Nat) {i : Nat} (hi : i < p.cfgW) : (cfgBits p n).getLsbD i = n.testBit i := by
  rw [cfgBits, BitVec.getLsbD_ofNat, decide_eq_true hi, Bool.true_and]

theorem and_eq_mask_iff {w : Nat} {x mask : BitVec w} :
    x &&& mask = mask ↔ ∀ i, i < w → mask.getLsbD i = true → x.getLsbD i = true := by
  simp only [BitVec.eq_of_getLsbD_eq_iff, BitVec.getLsbD_and, Bool.and_eq_right_iff_imp]

theorem and_eq_zero_iff {w : Nat} {x mask : BitVec w} :
    x &&& mask = 0#w ↔ ∀ i, i < w → mask.getLsbD i = true → x.getLsbD i = false := by
  simp only [BitVec.eq_of_getLsbD_eq_iff, BitVec.getLsbD_and, BitVec.getLsbD_zero]
  refine forall₂_congr fun i _ => ?_
  cases mask.getLsbD i <;> simp

theorem unconditional_iff {p : Params} {c : Candidate} :
    unconditional p c = true ↔ cfgBits p c.requiredBits = 0#p.cfgW ∧ cfgBits p c.forbiddenBits = 0#p.cfgW := by
  simp [unconditional]

/-- The formula of R104, bit by bit. -/
theorem presentAt_iff {p : Params} {c : Candidate} {v : Nat} :
    presentAt p c v = true ↔
      ∀ i, i < p.cfgW → ((cfgBits p c.requiredBits).getLsbD i = true → v.testBit i = true) ∧
        ((cfgBits p c.forbiddenBits).getLsbD i = true → v.testBit i = false) := by
  rw [presentAt, Bool.and_eq_true, beq_iff_eq, beq_iff_eq, and_eq_mask_iff, and_eq_zero_iff, ← forall₂_and]
  refine forall₂_congr fun i hi => ?_
  rw [getLsbD_cfgBits p v hi]

/-- A candidate without masks meets the formula for every value, so for a defined setting the formula decides alone. -/
theorem present_of_defined {p : Params} {config : List (Nat × Nat)} {c : Candidate} {v : Nat}
    (hv : lookupName config c.settingName = some v) : present p config c = presentAt p c v := by
  simp only [present, hv]
  cases hu : unconditional p c with
  | false => rfl
  | true =>
    obtain ⟨hrequired, hforbidden⟩ := unconditional_iff.mp hu
    simp [presentAt, hrequired, hforbidden]

/-- A bit in both masks asks a value to have it and not to have it. -/
theorem presentAt_of_common_bit {p : Params} {c : Candidate} {v i : Nat}
    (hrequired : (cfgBits p c.requiredBits).getLsbD i = true)
    (hforbidden : (cfgBits p c.forbiddenBits).getLsbD i = true) : presentAt p c v = false := by
  refine Bool.eq_false_iff.mpr fun h => ?_
  obtain ⟨hset, hclear⟩ := presentAt_iff.mp h i (BitVec.lt_of_getLsbD hrequired)
  exact absurd (hset hrequired) (by simp [hclear hforbidden])

/-- Settles O27: the formula bit by bit, and its two consequences. -/
theorem presenceCondition : Obligations.PresenceCondition := by
  intro p config c
  refine ⟨fun hrequired hforbidden => ?_, fun v hv => ?_, fun i hrequired hforbidden => ?_⟩
  · simp [present, unconditional_iff.mpr ⟨hrequired, hforbidden⟩]
  · rw [present_of_defined hv, presentAt_iff]
  · cases hv : lookupName config c.settingName with
    | some v => rw [present_of_defined hv, presentAt_of_common_bit hrequired hforbidden]
    | none =>
      have hu : unconditional p c = false := by
        refine Bool.eq_false_iff.mpr fun hu => ?_
        simp [(unconditional_iff.mp hu).1] at hrequired
      simp [present, hu, hv]

end Sys2Proof.Machine

/-! PROOFS of the family 41_read.md: the two paths of `READ16`, the calls of its dispatches, and reads that no slot
answers. -/

namespace Sys2Proof.Machine

/-! ## The handlers' bytes and devices -/

/-- Settles O3: the dispatch path runs the calls of both bytes, one after the other. -/
theorem readReturnsTheHandlersBytes : Obligations.ReadReturnsTheHandlersBytes := by
  intro s a he hp hb
  obtain ⟨start, n, hcalls⟩ := readDispatch_calls a s
  exact ⟨readDispatch a s, start, n, exec_read16_dispatch he hp hb, hcalls⟩

/-- The calls of a single slot: its handler runs once, on the devices as they stand (R123, R125). -/
theorem readCalls_singleton {reader : Nat → Option (Nat × ReadHandler)} {i h : Nat} {f : ReadHandler}
    (hr : reader i = some (h, f)) (a : Addr) (v : Byte) (devices : Nat → DeviceState) (n : Nat) :
    readCalls reader a [i] v devices n =
      ⟨[(i, (runRead f n h (devices h) a v).1)],
        fun d => if d = h then (runRead f n h (devices h) a v).2 else devices d, n + 1⟩ := by
  simp only [readCalls, hr]

/-- Settles O4: each dispatch is one call, and the second finds the devices as the first left them. -/
theorem oneReaderPerByteReturnsItsByte : Obligations.OneReaderPerByteReturnsItsByte := by
  intro s a i j h k f g he hp hb hlow hhigh hf hg
  obtain ⟨start, n, hcache, hzero, -, hlatch, -, hresponse, hdevices⟩ := readDispatch_calls a s
  simp only [hlow, hhigh, readCalls_singleton hf, readCalls_singleton hg] at hlatch hresponse hdevices
  refine ⟨readDispatch a s, start, n, exec_read16_dispatch he hp hb, fun hc => (hcache hc).1, fun hz => (hzero hz).1,
    ⟨hlatch, hresponse, ?_, fun hne => ?_⟩, fun d hdh hdk => ?_⟩
  · rw [hdevices, if_pos rfl]
  · rw [hdevices, if_neg hne, if_pos rfl]
  · rw [hdevices, if_neg hdk, if_neg hdh]

/-! ## The events, the word and the frame -/

theorem SameBlock.eq {s t : State} (h : SameBlock s t) :
    t = { s with devices := t.devices, trace := t.trace, draws := t.draws } :=
  State.ext h.registry h.devindex h.latch h.lowByteCache h.highByteCache h.useFastPath h.fastRam h.phase h.icount rfl
    h.sideband h.cruAnswers h.requests rfl h.response h.log h.params h.ramEpoch rfl

/-- Settles O2: the events and the word are those of the two dispatches, and the rest of the block is their frame. -/
theorem dispatchReadCallsSlotsInOrder : Obligations.DispatchReadCallsSlotsInOrder := by
  intro s a he hp hb
  obtain ⟨low, high, start, hlow, hhigh, htrace, hcache, hzero, hlatch, hlowCache, hhighCache, hresponse⟩ :=
    readDispatch_reads a s
  have hframe := (readDispatch_frame a s).1
  have hicount : (readDispatch a s).icount = s.icount - 6 := hframe.icount
  refine ⟨readDispatch a s, low, high, start, exec_read16_dispatch he hp hb, hlow, hhigh, htrace, hcache, hzero, hlatch,
    hlowCache, hhighCache, hresponse, hicount, ?_⟩
  rw [hicount]
  exact hframe.eq

/-- Settles O5: a dispatch without calls ends with the byte it began with. -/
theorem unansweredReadIsStale : Obligations.UnansweredReadIsStale := by
  intro s a he hp hb
  obtain ⟨low, high, start, hlow, hhigh, -, hcache, hzero, hlatch, -, hhighCache, hresponse⟩ := readDispatch_reads a s
  refine ⟨readDispatch a s, _, exec_read16_dispatch he hp hb, hresponse, (readDispatch_frame a s).1.icount,
    fun hnone => ?_, fun hnone => ?_⟩
  · have hnil : low = [] := by simpa [hnone] using hlow
    have hold : (readDispatch a s).latch = s.latch := by rw [hlatch, hnil]; rfl
    exact ⟨by rw [lowByte_ofBytes, hold], hold⟩
  · have hnil : high = [] := by simpa [hnone] using hhigh
    have hopen : (readDispatch a s).highByteCache = start := by rw [hhighCache, hnil]; rfl
    rw [highByte_ofBytes, hopen]
    exact ⟨hcache, hzero⟩

/-! ## The bypass path -/

/-- Settles O1: the bypass path is the field updates of R122. -/
theorem bypassReadReturnsBufferWord : Obligations.BypassReadReturnsBufferWord := by
  intro s a he hp hfast hwindow
  exact exec_read16_bypass he hp ((bypass_iff s a).mpr ⟨hfast, hwindow⟩)

end Sys2Proof.Machine

/-! PROOFS of the family 42_write.md: the two paths of `WRITE16` in its three forms, the calls of its dispatches, the merged
word, and the select test that separates writes from reads. -/

namespace Sys2Proof.Machine

/-! ## The dispatch path -/

/-- Settles O10: the events are those of the two dispatches, and the rest of the block is their frame. -/
theorem dispatchWriteCallsSlotsInOrder : Obligations.DispatchWriteCallsSlotsInOrder := by
  intro s mask a v he hp hb
  obtain ⟨hframe, -, htrace⟩ := writeDispatch_spec a (mergedWord s v mask) s
  exact ⟨_, exec_write16_dispatch mask v he hp hb, htrace, hframe.eq⟩

/-- Settles O11: the dispatch path runs the calls of both bytes, one after the other. -/
theorem writeRunsTheHandlers : Obligations.WriteRunsTheHandlers := by
  intro s mask a v he hp hb
  have hdevices := (writeDispatch_calls a (mergedWord s v mask) s).1
  exact ⟨_, exec_write16_dispatch mask v he hp hb, congrFun hdevices⟩

/-- The call of a single slot: its handler runs once, on the devices as they stand (R145, R146). -/
theorem writeCalls_singleton {writer : Nat → Option (Nat × WriteHandler)} {i h : Nat} {f : WriteHandler}
    (hw : writer i = some (h, f)) (a : Addr) (b : Byte) (devices : Nat → DeviceState) (n : Nat) :
    writeCalls writer a b [i] devices n =
      (fun d => if d = h then runWrite f n h (devices h) a b else devices d, n + 1) := by
  simp only [writeCalls, hw]

/-- Settles O12: each dispatch is one call, and the second finds the devices as the first left them. -/
theorem oneWriterPerByteGetsItsByte : Obligations.OneWriterPerByteGetsItsByte := by
  intro s mask a v i j h k f g he hp hb hlow hhigh hf hg
  have hdevices := congrFun (writeDispatch_calls a (mergedWord s v mask) s).1
  simp only [hlow, hhigh, writeCalls_singleton hf, writeCalls_singleton hg] at hdevices
  refine ⟨_, s.draws + 1, exec_write16_dispatch mask v he hp hb, ⟨?_, fun hne => ?_⟩, fun d hdh hdk => ?_⟩
  · rw [hdevices, if_pos rfl]
  · rw [hdevices, if_neg hne, if_pos rfl]
  · rw [hdevices, if_neg hdk, if_neg hdh]

/-- The whole next state of a write no slot accepts: only the wait states are left of it (R150). -/
theorem writeDispatch_unanswered {s : State} {a : Addr} (w : Word) (hlow : s.writeSlots (oddAddress a) = [])
    (hhigh : s.writeSlots a = []) :
    writeDispatch a w s =
      { s with icount := s.icount - 6, trace := s.trace ++ [.wait 3, .wait 3], response := .nothing } := by
  have hhigh' : (s.consume Config.waitCycles).writeSlots a = [] := hhigh
  have hcycles : s.icount - 3 - 3 = s.icount - 6 := by omega
  simp only [writeDispatch, writeScan_none _ _ _ _ hlow, writeScan_none _ _ _ _ hhigh']
  apply State.ext <;> simp [Config.waitCycles, hcycles]

/-- Settles O13: no device is called at either address. -/
theorem unmappedWriteIsANoOp : Obligations.UnmappedWriteIsANoOp := by
  intro s mask a v he hp hb hlow hhigh
  rw [exec_write16_dispatch mask v he hp hb, writeDispatch_unanswered _ hlow hhigh]

/-! ## The bypass path -/

theorem fastWord_writeBypass (a : Addr) (w : Word) (s : State) : (writeBypass a w s).fastWord (fastIndex a) = w :=
  fastWord_setFastWord_same s (fastIndex a) w

/-- Settles O9: the bypass path sets the two bytes of one word of the buffer, and records and answers the write. -/
theorem bypassWriteStoresMergedWord : Obligations.BypassWriteStoresMergedWord := by
  intro s mask a v he hp hfast hwindow
  have hexec := exec_write16_bypass mask v he hp ((bypass_iff s a).mpr ⟨hfast, hwindow⟩)
  refine ⟨_, hexec, rfl, ?_, ?_, fun k hhigh hlow => ?_⟩
  · rw [fastByte_writeBypass, if_pos rfl]
  · rw [fastByte_writeBypass, if_neg (by omega), if_pos rfl]
  · rw [fastByte_writeBypass, if_neg hhigh, if_neg hlow]

/-! ## The merged word -/

/-- The merge looks at nothing of the state but the caches (R141 to R144). -/
theorem mergedWord_congr {s t : State} (hlow : t.lowByteCache = s.lowByteCache)
    (hhigh : t.highByteCache = s.highByteCache) (v : Word) (mask : ByteMask) : mergedWord t v mask = mergedWord s v mask := by
  cases mask <;> simp only [mergedWord, hlow, hhigh]

/-- Settles O14: neither path touches `latch` or a cache, and the merge looks at the caches only. -/
theorem writesLeaveLatchAndCaches : Obligations.WritesLeaveLatchAndCaches := by
  intro s t mask a v h
  have hleaves : t.latch = s.latch ∧ t.lowByteCache = s.lowByteCache ∧ t.highByteCache = s.highByteCache := by
    obtain ⟨-, -, ⟨-, rfl⟩ | ⟨-, rfl⟩⟩ := exec_write16_cases h
    · exact ⟨rfl, rfl, rfl⟩
    · have hframe := (writeDispatch_spec a (mergedWord s v mask) s).1
      exact ⟨hframe.latch, hframe.lowByteCache, hframe.highByteCache⟩
  obtain ⟨hlatch, hlow, hhigh⟩ := hleaves
  exact ⟨hlatch, hlow, hhigh, fun mask' v' => (merged_eq t mask' v').trans (mergedWord_congr hlow hhigh v' mask')⟩

/-- Settles O15: the caches hold the bytes of the word read, and either path writes the merged word. -/
theorem byteWriteMergesTheLastWordRead : Obligations.ByteWriteMergesTheLastWordRead := by
  intro s t a b v h he
  obtain ⟨w, hresponse, hlow, hhigh⟩ := cachesHoldTheLastWordRead s t a h
  obtain ⟨-, hrun, -⟩ := exec_read16_cases h
  have hp : t.phase = .run := ((served_of_exec h).sameConfiguration (by simp)).phase.trans hrun
  have hmergedHigh : mergedWord t v .highByteOnly = ofBytes (highByte v) (lowByte w) := by rw [mergedWord, hlow]
  have hmergedLow : mergedWord t v .lowByteOnly = ofBytes (highByte w) (lowByte v) := by rw [mergedWord, hhigh]
  cases hb : t.bypass b with
  | false =>
    refine ⟨w, _, _, hresponse, exec_write16_dispatch .highByteOnly v he hp hb,
      exec_write16_dispatch .lowByteOnly v he hp hb, fun _ => ?_, nofun⟩
    rw [hmergedHigh, hmergedLow, (writeDispatch_spec b _ t).2.2, (writeDispatch_spec b _ t).2.2]
    simp only [lowByte_ofBytes, highByte_ofBytes, and_self]
  | true =>
    refine ⟨w, _, _, hresponse, exec_write16_bypass .highByteOnly v he hp hb,
      exec_write16_bypass .lowByteOnly v he hp hb, nofun, fun _ => ?_⟩
    rw [hmergedHigh, hmergedLow]
    exact ⟨rfl, fastWord_writeBypass b _ t, rfl, fastWord_writeBypass b _ t⟩

/-! ## The select tests -/

/-- Settles O53: an address has one value under the mask, and the two tests compare it with different patterns. -/
theorem writeSelectSplitsReadsAndWrites : Obligations.WriteSelectSplitsReadsAndWrites := by
  intro d a hdiffer hread
  refine Bool.eq_false_iff.mpr fun hwrite => hdiffer ?_
  obtain ⟨-, hselect⟩ := (readMatches_iff d a).mp hread
  obtain ⟨-, hwriteSelect⟩ := (writeMatches_iff d a).mp hwrite
  exact hwriteSelect.symm.trans hselect

end Sys2Proof.Machine

/-! PROOFS of the family 43_cru.md: `EnvCruRead` and what it depends on, the two CRU operations, and the events of every
operation told apart by CRU and device calls. -/

namespace Sys2Proof.Machine

/-! ## `EnvCruRead` -/

/-- R76. -/
theorem envCruRead_value_lt (c : Nat) (s : State) : (envCruRead c s).1 < 2 ^ s.params.cruDW := by
  unfold envCruRead
  split <;> exact Nat.mod_lt _ (Nat.two_pow_pos _)

/-- A queued answer is given without a draw (log 9). -/
theorem envCruRead_queued {s : State} {v : Nat} {rest : List Nat} (h : s.cruAnswers = v :: rest) (c : Nat) :
    envCruRead c s = (cruDatum s.params v, { s with cruAnswers := rest }) := by
  simp [envCruRead, h]

/-- `s` with the registry, the bypass, `latch`, the caches, `fast_ram` and the devices of `u` (R162). -/
def State.withMultiplexerOf (s u : State) : State :=
  { s with registry := u.registry, devindex := u.devindex, useFastPath := u.useFastPath, latch := u.latch,
           lowByteCache := u.lowByteCache, highByteCache := u.highByteCache, fastRam := u.fastRam,
           ramEpoch := u.ramEpoch, devices := u.devices }

@[simp] theorem State.withMultiplexerOf_params (s u : State) : (s.withMultiplexerOf u).params = s.params := rfl

theorem envCruRead_withMultiplexerOf (c : Nat) (s u : State) :
    envCruRead c (s.withMultiplexerOf u) = ((envCruRead c s).1, (envCruRead c s).2.withMultiplexerOf u) := by
  cases h : s.cruAnswers with
  | nil => simp [envCruRead, State.withMultiplexerOf, h]
  | cons v rest => rw [envCruRead_queued h, envCruRead_queued (s := s.withMultiplexerOf u) h]; rfl

theorem cruAccess_withMultiplexerOf {s next t : State} (h : cruAccess s next = .next t) (u : State) :
    cruAccess (s.withMultiplexerOf u) (next.withMultiplexerOf u) = .next (t.withMultiplexerOf u) := by
  obtain ⟨hp, rfl⟩ := cruAccess_next_iff.mp h
  exact cruAccess_next_iff.mpr ⟨hp, rfl⟩

/-! ## The two operations -/

/-- Settles O19: `EnvCruRead` moves the queue and the draw number only, and the event and the answer are its value. -/
theorem cruReadPassesThrough : Obligations.CruReadPassesThrough := by
  intro s c hp
  obtain ⟨answers, n, -, hstate⟩ := envCruRead_state (cruAddress s.params c) s
  refine ⟨_, (envCruRead (cruAddress s.params c) s).1, cruAccess_next_iff.mpr ⟨hp, rfl⟩, envCruRead_value_lt _ s, ?_,
    fun v rest hqueued => ?_⟩
  · rw [hstate]; rfl
  · rw [envCruRead_queued hqueued]
    exact ⟨rfl, rfl, rfl⟩

/-- Settles O20: the access goes on in the run phase, and all it does is record the event. -/
theorem cruWritePassesThrough : Obligations.CruWritePassesThrough :=
  fun _ _ _ hp => cruAccess_next_iff.mpr ⟨hp, rfl⟩

/-- Settles O21: `EnvCruRead` and the check of the phase look at nothing of the multiplexer. -/
theorem cruIgnoresTheMultiplexer : Obligations.CruIgnoresTheMultiplexer := by
  rintro s t u i (⟨c, rfl⟩ | ⟨c, v, rfl⟩) h
  · refine Eq.trans ?_ (cruAccess_withMultiplexerOf h u)
    change execCruRead c (s.withMultiplexerOf u) = _
    rw [execCruRead, State.withMultiplexerOf_params, envCruRead_withMultiplexerOf]
    rfl
  · exact cruAccess_withMultiplexerOf h u

/-! ## CRU calls and device calls -/

theorem exec_cru_event {s t : State} {i : Instr} (hi : (∃ c, i = .cruRead c) ∨ (∃ c v, i = .cruWrite c v))
    (h : exec i s = .next t) : ∃ e : Event, t.trace = s.trace ++ [e] ∧ e.isDevice = false := by
  obtain ⟨c, rfl⟩ | ⟨c, v, rfl⟩ := hi
  · obtain ⟨-, r, answers, n, -, rfl⟩ := exec_cruRead_cases h
    exact ⟨_, rfl, rfl⟩
  · obtain ⟨-, rfl⟩ := exec_cruWrite_cases h
    exact ⟨_, rfl, rfl⟩

theorem isCru_of_deviceAddress {e : Event} {x : Addr} (h : e.deviceAddress = some x) : e.isCru = false := by
  cases e with
  | cruRd | cruWr => cases h
  | _ => rfl

theorem DispatchEvents.isCru {a : Addr} {low high events : List Event} (h : DispatchEvents a low high events) :
    ∀ e ∈ events, e.isCru = false := by
  intro e he
  simp only [h.events_eq, List.mem_append, List.mem_singleton] at he
  obtain ((hlow | rfl) | hhigh) | rfl := he
  · exact isCru_of_deviceAddress (h.low_address e hlow)
  · rfl
  · exact isCru_of_deviceAddress (h.high_address e hhigh)
  · rfl

/-- R162, second half: neither path of a word access and no reset reaches the CRU handlers. -/
theorem Served.nonCru_events {s t : State} {i : Instr} (h : Served s i t)
    (hi : ¬ ((∃ c, i = .cruRead c) ∨ (∃ c v, i = .cruWrite c v))) :
    ∃ events, t.trace = s.trace ++ events ∧ (∀ e ∈ events, e.isCru = false) ∧ t.cruAnswers = s.cruAnswers := by
  cases h with
  | bypassRead | bypassWrite => exact ⟨[_], rfl, fun _ he => List.mem_singleton.mp he ▸ rfl, rfl⟩
  | @dispatchRead a =>
    obtain ⟨low, high, events, hd, htrace, -⟩ := readDispatch_events a s
    exact ⟨events, htrace, hd.isCru, (readDispatch_frame a s).1.cruAnswers⟩
  | @dispatchWrite _ a _ w =>
    obtain ⟨low, high, events, hd, htrace, -⟩ := writeDispatch_events a w s
    exact ⟨events, htrace, hd.isCru, (writeDispatch_spec a w s).1.cruAnswers⟩
  | cruRead => exact absurd (.inl ⟨_, rfl⟩) hi
  | cruWrite => exact absurd (.inr ⟨_, _, rfl⟩) hi
  | resetCompletes | resetOverflows => exact ⟨[], (List.append_nil _).symm, nofun, rfl⟩

/-- Settles O22: a CRU operation appends its one CRU event, any other operation none. -/
theorem cruAndDeviceCallsAreSeparate : Obligations.CruAndDeviceCallsAreSeparate := by
  intro s t i h
  by_cases hi : (∃ c, i = .cruRead c) ∨ (∃ c v, i = .cruWrite c v)
  · obtain ⟨e, htrace, hdevice⟩ := exec_cru_event hi h
    exact ⟨[e], htrace, fun _ _ he => List.mem_singleton.mp he ▸ hdevice, fun hn => absurd hi hn⟩
  · obtain ⟨events, htrace, hcru, hanswers⟩ := (served_of_exec h).nonCru_events hi
    exact ⟨events, htrace, fun hc => absurd hc hi, fun _ => ⟨hcru, hanswers⟩⟩

end Sys2Proof.Machine

/-! PROOFS of the family 60_exceptions.md: when an operation has a step, when the run phase is left, which devices an access
reaches, and what a run of operations charges. -/

namespace Sys2Proof.Machine

/-! ## The run phase -/

/-- A mount overflows under `refuse` only, and on an eleventh mountable candidate (R106). -/
theorem refuse_and_ten_lt_of_mount_overflow {p : Params} {sb : Sideband} {name : Nat} {log : List LogLine}
    (h : mount p sb = .overflow name log) : p.overflowPolicy = .refuse ∧ 10 < (mountable p sb).length := by
  constructor
  · cases hp : p.overflowPolicy with
    | refuse => rfl
    | drop => rw [mount_of_drop hp] at h; cases h
  · by_contra hfits
    rw [mount_of_fits (not_lt.mp hfits)] at h
    cases h

/-- Settles O29: an access leaves the phase, and a reset that completes ends in the run phase. -/
theorem onlyOverflowLeavesTheRunPhase : Obligations.OnlyOverflowLeavesTheRunPhase := by
  intro s t i h hrun hnever
  by_cases hi : i = .reset
  · subst hi
    obtain ⟨-, ⟨slots, log, -, rfl⟩ | ⟨name, log, hm, -⟩⟩ := exec_reset_cases h
    · cases hnever
    · exact ⟨rfl, refuse_and_ten_lt_of_mount_overflow hm⟩
  · have hphase : t.phase = s.phase := ((served_of_exec h).sameConfiguration hi).phase
    rw [hphase, hrun] at hnever
    cases hnever

/-! ## When an operation has a step -/

theorem exists_wordAccess_next_iff {a : Addr} {s u : State} :
    (∃ t, wordAccess a s u = .next t) ↔ isEven a = true ∧ s.phase = .run := by
  simp [wordAccess_next_iff]

theorem exists_cruAccess_next_iff {s u : State} : (∃ t, cruAccess s u = .next t) ↔ s.phase = .run := by
  simp [cruAccess_next_iff]

/-- A reset has a step exactly on well-formed operands, whether it completes or overflows (R106, R107). -/
theorem exists_exec_reset_next_iff {s : State} :
    (∃ t, exec .reset s = .next t) ↔ sidebandWellFormed s.params s.sideband = true := by
  constructor
  · rintro ⟨t, h⟩
    exact (exec_reset_cases h).1
  · intro hw
    cases hm : mount s.params s.sideband with
    | mounted slots log => exact ⟨_, exec_reset_of_mounted hw hm⟩
    | overflow name log => exact ⟨_, exec_reset_of_overflow hw hm⟩

/-- Settles O30: a word access has its two checks, a CRU access that of the phase, a reset that of its operands. -/
theorem admittedOperationsComplete : Obligations.AdmittedOperationsComplete := by
  intro s i
  cases i with
  | read16 | write16Word | write16HighByteOnly | write16LowByteOnly => exact exists_wordAccess_next_iff
  | cruRead | cruWrite => exact exists_cruAccess_next_iff.trans (and_iff_right rfl).symm
  | reset => exact exists_exec_reset_next_iff.trans (and_iff_right rfl).symm

/-! ## The devices an access reaches -/

/-- The calls of a read dispatch leave a device that no called slot holds (R184). -/
theorem readCalls_devices_other {reader : Nat → Option (Nat × ReadHandler)} {is : List Nat} {d : Nat}
    (hd : ∀ i h f, i ∈ is → reader i = some (h, f) → h ≠ d) (a : Addr) (v : Byte) (devices : Nat → DeviceState) (n : Nat) :
    (readCalls reader a is v devices n).devices d = devices d := by
  induction is generalizing v devices n with
  | nil => rfl
  | cons i is ih =>
    have ih := ih fun j h f hj => hd j h f (List.mem_cons_of_mem i hj)
    cases hr : reader i with
    | none => simp only [readCalls, hr, ih]
    | some hf => simp only [readCalls, hr, ih, if_neg (hd i hf.1 hf.2 List.mem_cons_self hr).symm]

/-- The calls of a write dispatch leave a device that no called slot holds (R184). -/
theorem writeCalls_devices_other {writer : Nat → Option (Nat × WriteHandler)} {is : List Nat} {d : Nat}
    (hd : ∀ i h f, i ∈ is → writer i = some (h, f) → h ≠ d) (a : Addr) (b : Byte) (devices : Nat → DeviceState) (n : Nat) :
    (writeCalls writer a b is devices n).1 d = devices d := by
  induction is generalizing devices n with
  | nil => rfl
  | cons i is ih =>
    have ih := ih fun j h f hj => hd j h f (List.mem_cons_of_mem i hj)
    cases hw : writer i with
    | none => simp only [writeCalls, hw, ih]
    | some hf => simp only [writeCalls, hw, ih, if_neg (hd i hf.1 hf.2 List.mem_cons_self hw).symm]

/-- Settles O46: the bypass path calls no device, and each dispatch calls only the slots that answer its address. -/
theorem otherDevicesAreUntouched : Obligations.OtherDevicesAreUntouched := by
  intro s t a d
  refine ⟨fun h hother => ?_, fun mask v h hother => ?_⟩
  · obtain ⟨-, -, ⟨-, rfl⟩ | ⟨-, rfl⟩⟩ := exec_read16_cases h
    · rfl
    · obtain ⟨start, n, -, -, -, -, -, -, hdevices⟩ := readDispatch_calls a s
      rw [hdevices, readCalls_devices_other fun i h f hi => hother i h f (List.mem_append_right _ hi),
        readCalls_devices_other fun i h f hi => hother i h f (List.mem_append_left _ hi)]
  · obtain ⟨-, -, ⟨-, rfl⟩ | ⟨-, rfl⟩⟩ := exec_write16_cases h
    · rfl
    · rw [(writeDispatch_calls a (mergedWord s v mask) s).1,
        writeCalls_devices_other fun i h f hi => hother i h f (List.mem_append_right _ hi),
        writeCalls_devices_other fun i h f hi => hother i h f (List.mem_append_left _ hi)]

/-! ## What a run charges -/

theorem dispatches_write16Form (s : State) (mask : ByteMask) (a : Addr) (v : Word) :
    s.dispatches (write16Form mask a v) = !s.bypass a := by
  cases mask <;> rfl

/-- An operation charges 6 cycles on the dispatch path and nothing otherwise (R132, R148, R181). -/
theorem icount_of_exec {s t : State} {i : Instr} (h : exec i s = .next t) :
    t.icount = s.icount - if s.dispatches i then 6 else 0 := by
  obtain ⟨a, rfl⟩ | ⟨mask, a, v, rfl⟩ | ⟨c, rfl⟩ | ⟨c, v, rfl⟩ | rfl := instr_cases i
  · obtain ⟨-, -, ⟨hb, rfl⟩ | ⟨hb, rfl⟩⟩ := exec_read16_cases h
    · simp [State.dispatches, hb, readBypass]
    · simpa [State.dispatches, hb] using (readDispatch_frame a s).1.icount
  · rw [dispatches_write16Form]
    obtain ⟨-, -, ⟨hb, rfl⟩ | ⟨hb, rfl⟩⟩ := exec_write16_cases h
    · simp [hb, writeBypass]
    · simpa [hb] using (writeDispatch_spec a (mergedWord s v mask) s).1.icount
  · obtain ⟨-, r, answers, n, -, rfl⟩ := exec_cruRead_cases h
    exact (Int.sub_zero _).symm
  · obtain ⟨-, rfl⟩ := exec_cruWrite_cases h
    exact (Int.sub_zero _).symm
  · obtain ⟨-, ⟨slots, log, -, rfl⟩ | ⟨name, log, -, rfl⟩⟩ := exec_reset_cases h
    · exact (Int.sub_zero _).symm
    · exact (Int.sub_zero _).symm

/-- A run that ends has served its first operation and then the others (R53). -/
theorem runAll_cons_next {i : Instr} {is : List Instr} {s : State} {n : Nat} {r : State × Nat}
    (h : runAll (i :: is) s n = .next r) :
    ∃ u, exec i s = .next u ∧ runAll is u (if s.dispatches i then n + 1 else n) = .next r := by
  rw [runAll] at h
  cases he : exec i s with
  | next u => rw [he] at h; exact ⟨u, rfl, h⟩
  | fault e => rw [he] at h; cases h
  | refused e => rw [he] at h; cases h

/-- What a run keeps: the cycles left together with six for each dispatched access so far (R181). -/
theorem icount_add_of_runAll {is : List Instr} {s t : State} {m n : Nat} (h : runAll is s m = .next (t, n)) :
    t.icount + 6 * (n : Int) = s.icount + 6 * (m : Int) := by
  induction is generalizing s m with
  | nil => cases h; rfl
  | cons i is ih =>
    obtain ⟨u, he, hrest⟩ := runAll_cons_next h
    rw [ih hrest, icount_of_exec he]
    split
    · push_cast; omega
    · omega

/-- Settles O49: each dispatched access adds one to the count and takes six cycles. -/
theorem runsChargeSixPerDispatchedAccess : Obligations.RunsChargeSixPerDispatchedAccess := by
  intro is s t n h
  have hsum := icount_add_of_runAll h
  omega

end Sys2Proof.Machine

/-! PROOFS of the family 70_reset_and_hazards.md: the idle step, and the state after reset as the end of an empty mount. -/

namespace Sys2Proof.Machine

/-! ## The idle step -/

theorem fetch_nil {s : State} (h : s.requests = []) : s.fetch = none := by
  simp only [State.fetch, h]

theorem step_of_fetch_none {s : State} (h : s.fetch = none) : step s = .next s := by
  simp only [step, h]

/-- Settles O39: nothing is fetched, and a step without a fetched request keeps the state. -/
theorem idleBlockDoesNothing : Obligations.IdleBlockDoesNothing :=
  fun _ hrequests => step_of_fetch_none (fetch_nil hrequests)

/-! ## The reset of no candidate -/

theorem sidebandWellFormed_of_candidates_nil (p : Params) {sb : Sideband} (h : sb.candidates = []) :
    sidebandWellFormed p sb = true := by
  simp only [sidebandWellFormed, h, List.all_nil]

theorem mount_of_candidates_nil (p : Params) {sb : Sideband} (h : sb.candidates = []) : mount p sb = .mounted [] [] := by
  simp only [mount, h, mountFrom]

/-- A reset with no candidate completes with no descriptor and no log line (R111). -/
theorem exec_reset_of_candidates_nil {s : State} (h : s.sideband.candidates = []) :
    exec .reset s = .next (resetCompleted [] [] s) :=
  exec_reset_of_mounted (sidebandWellFormed_of_candidates_nil s.params h) (mount_of_candidates_nil s.params h)

/-- The registry after reset is the one filled from no descriptor (R202). -/
theorem reset_registry : State.reset.registry = fillRegistry [] := rfl

theorem reset_slot {i : Nat} (hi : i < 10) : State.reset.slot i = none := by
  rw [State.slot, reset_registry, fillRegistry_slot [] hi, List.getElem?_nil]

/-- Settles O42: the mount of no candidate fills no slot, and the completed reset takes the flag, which is off. -/
theorem resetStateIsAnEmptyMount : Obligations.ResetStateIsAnEmptyMount := by
  refine ⟨fun i hi => reset_slot hi, rfl, rfl, rfl, fun s hcandidates hflag => ?_⟩
  have hexec := exec_reset_of_candidates_nil hcandidates
  have huseFastPath : (resetCompleted [] [] s).useFastPath = false := hflag
  exact ⟨_, hexec, reset_registry.symm, rfl, huseFastPath, rfl⟩

end Sys2Proof.Machine
